-- ==== Sys2Proof/Word.lean ====
section
/-! DEFINITION. The word type of the block and the index of a register. -/

namespace Sys2Proof

/-- "Every register value, PC value, address and memory cell is a 32-bit bit vector" (00_scope.md R11). -/
abbrev Word := BitVec 32

/-- "Each register index is an unsigned 5-bit number 0 to 31" (30_encoding.md R62). -/
abbrev RegIdx := BitVec 5

end Sys2Proof
end

