-- ==== Sys2Proof/DecoderPorts.lean ====
section
/-! DEFINITION. The outputs of the decoder block (30_encoding.md R75) as data types. -/

namespace Sys2Proof

/-- The `kind` output: "one of the 17 outcomes" (30_encoding.md R67, R75). -/
inductive Kind where
  | halt | add | sub | sll | slt | srl | or | and | addi | sltiu | jalr | lw | sw | beq | bne | jal | nop
  deriving DecidableEq, Repr

/-- The decoder's output ports (30_encoding.md R62, R75). The six fields are the same bits of every word. -/
structure DecoderPorts where
  opcode : BitVec 7
  rd     : RegIdx
  funct3 : BitVec 3
  rs1    : RegIdx
  rs2    : RegIdx
  funct7 : BitVec 7
  /-- The 32-bit immediate of the selected format; 0 for R-type, HALT and NOP. -/
  imm    : Word
  kind   : Kind
  deriving DecidableEq, Repr

end Sys2Proof
end

