-- ==== Sys2Proof/Syntax.lean ====
section
/-! DEFINITION. The instructions: one constructor for each row of spec/opcode_table.json, with the fields its rule
reads (30_encoding.md R68). -/

namespace Sys2Proof

/-- The 17 outcomes of the decoder (30_encoding.md R67). An immediate is held at the width of its format before
sign extension: 12 bits for I and S, 13 for B, 21 for J (R63 to R66). -/
inductive Instr where
  /-- The halt sentinel, the exact word 0x00000063 (40_execution_cycle.md R105). -/
  | halt
  /-- R-type (41_alu.md R130). -/
  | add (rd rs1 rs2 : RegIdx)
  /-- R-type (41_alu.md R131). -/
  | sub (rd rs1 rs2 : RegIdx)
  /-- R-type (41_alu.md R132). -/
  | sll (rd rs1 rs2 : RegIdx)
  /-- R-type, signed comparison (41_alu.md R133; 90_conflicts.md C1). -/
  | slt (rd rs1 rs2 : RegIdx)
  /-- R-type (41_alu.md R134). -/
  | srl (rd rs1 rs2 : RegIdx)
  /-- R-type (41_alu.md R135). -/
  | or (rd rs1 rs2 : RegIdx)
  /-- R-type (41_alu.md R136). -/
  | and (rd rs1 rs2 : RegIdx)
  /-- I-type (41_alu.md R137). -/
  | addi (rd rs1 : RegIdx) (imm : BitVec 12)
  /-- I-type, unsigned comparison (41_alu.md R138). -/
  | sltiu (rd rs1 : RegIdx) (imm : BitVec 12)
  /-- I-type, any funct3 (42_control_transfer.md R150; 30_encoding.md R70). -/
  | jalr (rd rs1 : RegIdx) (imm : BitVec 12)
  /-- I-type (43_load_store.md R170). -/
  | lw (rd rs1 : RegIdx) (imm : BitVec 12)
  /-- S-type (43_load_store.md R171). -/
  | sw (rs1 rs2 : RegIdx) (imm : BitVec 12)
  /-- B-type (42_control_transfer.md R151). -/
  | beq (rs1 rs2 : RegIdx) (imm : BitVec 13)
  /-- B-type (42_control_transfer.md R152). -/
  | bne (rs1 rs2 : RegIdx) (imm : BitVec 13)
  /-- J-type (42_control_transfer.md R153). -/
  | jal (rd : RegIdx) (imm : BitVec 21)
  /-- "anything else" (44_default_noop.md R190). -/
  | nop
  deriving DecidableEq, Repr

end Sys2Proof
end

