-- ==== Sys2Proof/WellFormed.lean ====
section
/-! DEFINITION. Which terms of Instr are instructions of the block. Register indices and the ranges of the
immediates (30_encoding.md R62 to R66, R76) are in the types; what is left is checked here. -/

namespace Sys2Proof

/-- Bit 0 of a B-type immediate is 0 (30_encoding.md R65: "always even"). -/
def evenImmB (imm : BitVec 13) : Bool := !imm.getLsbD 0

/-- Bit 0 of a J-type immediate is 0 (30_encoding.md R66: "always even"). -/
def evenImmJ (imm : BitVec 21) : Bool := !imm.getLsbD 0

/-- `beq x0, x0, 0` is the word of the halt sentinel and never a beq (30_encoding.md R72). -/
def isSentinelBeq (rs1 rs2 : RegIdx) (imm : BitVec 13) : Bool := rs1 == 0#5 && rs2 == 0#5 && imm == 0#13

/-- The well-formed instructions: those some word decodes to. -/
def Instr.wellFormed : Instr → Bool
  | .halt => true
  | .add _ _ _ => true
  | .sub _ _ _ => true
  | .sll _ _ _ => true
  | .slt _ _ _ => true
  | .srl _ _ _ => true
  | .or _ _ _ => true
  | .and _ _ _ => true
  | .addi _ _ _ => true
  | .sltiu _ _ _ => true
  | .jalr _ _ _ => true
  | .lw _ _ _ => true
  | .sw _ _ _ => true
  | .beq rs1 rs2 imm => evenImmB imm && !isSentinelBeq rs1 rs2 imm
  | .bne _ _ imm => evenImmB imm
  | .jal _ imm => evenImmJ imm
  | .nop => true

end Sys2Proof
end

