-- ==== Sys2Proof/Decode.lean ====
section
/-! DEFINITION. The decoder (30_encoding.md): total on every 32-bit word, with no state, and the encoder written from
the same field tables. -/

namespace Sys2Proof

/-! Field extraction (30_encoding.md R62). -/

def opcodeOf (w : Word) : BitVec 7 := w.extractLsb' 0 7
def rdOf (w : Word) : RegIdx := w.extractLsb' 7 5
def funct3Of (w : Word) : BitVec 3 := w.extractLsb' 12 3
def rs1Of (w : Word) : RegIdx := w.extractLsb' 15 5
def rs2Of (w : Word) : RegIdx := w.extractLsb' 20 5
def funct7Of (w : Word) : BitVec 7 := w.extractLsb' 25 7

/-! Immediates at the width of their format, and their sign extension. -/

/-- `w[31:20]` (30_encoding.md R63). -/
def immIOf (w : Word) : BitVec 12 := w.extractLsb' 20 12

/-- `{w[31:25], w[11:7]}` (30_encoding.md R64). -/
def immSOf (w : Word) : BitVec 12 := (w.extractLsb' 25 7 ++ w.extractLsb' 7 5).cast rfl

/-- `{w[31], w[7], w[30:25], w[11:8], 0}` (30_encoding.md R65). -/
def immBOf (w : Word) : BitVec 13 :=
  (w.extractLsb' 31 1 ++ w.extractLsb' 7 1 ++ w.extractLsb' 25 6 ++ w.extractLsb' 8 4 ++ 0#1).cast rfl

/-- `{w[31], w[19:12], w[20], w[30:21], 0}` (30_encoding.md R66). -/
def immJOf (w : Word) : BitVec 21 :=
  (w.extractLsb' 31 1 ++ w.extractLsb' 12 8 ++ w.extractLsb' 20 1 ++ w.extractLsb' 21 10 ++ 0#1).cast rfl

/-- `sext_N` (00_scope.md R12). -/
def sext {n : Nat} (v : BitVec n) : Word := v.signExtend 32

/-! The opcode, funct3 and funct7 values of 30_encoding.md R69. -/

def opReg : BitVec 7 := 0b0110011#7
def opImm : BitVec 7 := 0b0010011#7
def opJalr : BitVec 7 := 0b1100111#7
def opLoad : BitVec 7 := 0b0000011#7
def opStore : BitVec 7 := 0b0100011#7
def opBranch : BitVec 7 := 0b1100011#7
def opJal : BitVec 7 := 0b1101111#7

/-- HALT_WORD (40_execution_cycle.md R105). -/
def haltWord : Word := 0x00000063#32

/-- The R rows of R68: funct3 and funct7 both select; any other pair is a NOP. -/
def decodeReg (w : Word) : Instr :=
  if funct7Of w = 0b0000000#7 then
    if funct3Of w = 0b000#3 then .add (rdOf w) (rs1Of w) (rs2Of w)
    else if funct3Of w = 0b001#3 then .sll (rdOf w) (rs1Of w) (rs2Of w)
    else if funct3Of w = 0b010#3 then .slt (rdOf w) (rs1Of w) (rs2Of w)
    else if funct3Of w = 0b101#3 then .srl (rdOf w) (rs1Of w) (rs2Of w)
    else if funct3Of w = 0b110#3 then .or (rdOf w) (rs1Of w) (rs2Of w)
    else if funct3Of w = 0b111#3 then .and (rdOf w) (rs1Of w) (rs2Of w)
    else .nop
  else if funct7Of w = 0b0100000#7 then
    if funct3Of w = 0b000#3 then .sub (rdOf w) (rs1Of w) (rs2Of w) else .nop
  else .nop

/-- The rows of R68 under opcode 0010011. -/
def decodeImm (w : Word) : Instr :=
  if funct3Of w = 0b000#3 then .addi (rdOf w) (rs1Of w) (immIOf w)
  else if funct3Of w = 0b011#3 then .sltiu (rdOf w) (rs1Of w) (immIOf w)
  else .nop

/-- The row of R68 under opcode 0000011. -/
def decodeLoad (w : Word) : Instr :=
  if funct3Of w = 0b010#3 then .lw (rdOf w) (rs1Of w) (immIOf w) else .nop

/-- The row of R68 under opcode 0100011. -/
def decodeStore (w : Word) : Instr :=
  if funct3Of w = 0b010#3 then .sw (rs1Of w) (rs2Of w) (immSOf w) else .nop

/-- The rows of R68 under opcode 1100011. -/
def decodeBranch (w : Word) : Instr :=
  if funct3Of w = 0b000#3 then .beq (rs1Of w) (rs2Of w) (immBOf w)
  else if funct3Of w = 0b001#3 then .bne (rs1Of w) (rs2Of w) (immBOf w)
  else .nop

/-- `decode` of 30_encoding.md R68: the sentinel first, then the opcode. jalr and jal look at no funct3 (R70). -/
def decode (w : Word) : Instr :=
  if w = haltWord then .halt
  else if opcodeOf w = opReg then decodeReg w
  else if opcodeOf w = opImm then decodeImm w
  else if opcodeOf w = opJalr then .jalr (rdOf w) (rs1Of w) (immIOf w)
  else if opcodeOf w = opLoad then decodeLoad w
  else if opcodeOf w = opStore then decodeStore w
  else if opcodeOf w = opBranch then decodeBranch w
  else if opcodeOf w = opJal then .jal (rdOf w) (immJOf w)
  else .nop

/-! The decoder as a block (30_encoding.md R75). -/

/-- The `kind` output for an instruction. -/
def kindOf : Instr → Kind
  | .halt => .halt
  | .add _ _ _ => .add
  | .sub _ _ _ => .sub
  | .sll _ _ _ => .sll
  | .slt _ _ _ => .slt
  | .srl _ _ _ => .srl
  | .or _ _ _ => .or
  | .and _ _ _ => .and
  | .addi _ _ _ => .addi
  | .sltiu _ _ _ => .sltiu
  | .jalr _ _ _ => .jalr
  | .lw _ _ _ => .lw
  | .sw _ _ _ => .sw
  | .beq _ _ _ => .beq
  | .bne _ _ _ => .bne
  | .jal _ _ => .jal
  | .nop => .nop

/-- The immediate output: "the 32-bit immediate of the selected format …; 0 for R-type, HALT and NOP". -/
def immediateOf : Instr → Word
  | .halt => 0#32
  | .add _ _ _ => 0#32
  | .sub _ _ _ => 0#32
  | .sll _ _ _ => 0#32
  | .slt _ _ _ => 0#32
  | .srl _ _ _ => 0#32
  | .or _ _ _ => 0#32
  | .and _ _ _ => 0#32
  | .addi _ _ imm => sext imm
  | .sltiu _ _ imm => sext imm
  | .jalr _ _ imm => sext imm
  | .lw _ _ imm => sext imm
  | .sw _ _ imm => sext imm
  | .beq _ _ imm => sext imm
  | .bne _ _ imm => sext imm
  | .jal _ imm => sext imm
  | .nop => 0#32

/-- All of the decoder's outputs for one input word (R62, R75). -/
def decoderPorts (w : Word) : DecoderPorts :=
  { opcode := opcodeOf w, rd := rdOf w, funct3 := funct3Of w, rs1 := rs1Of w, rs2 := rs2Of w
    funct7 := funct7Of w, imm := immediateOf (decode w), kind := kindOf (decode w) }

/-! The encoder, from the format table of 30_encoding.md R61. -/

def encodeR (funct7 : BitVec 7) (funct3 : BitVec 3) (rd rs1 rs2 : RegIdx) : Word :=
  (funct7 ++ rs2 ++ rs1 ++ funct3 ++ rd ++ opReg).cast rfl

def encodeI (opcode : BitVec 7) (funct3 : BitVec 3) (rd rs1 : RegIdx) (imm : BitVec 12) : Word :=
  (imm ++ rs1 ++ funct3 ++ rd ++ opcode).cast rfl

def encodeS (funct3 : BitVec 3) (rs1 rs2 : RegIdx) (imm : BitVec 12) : Word :=
  (imm.extractLsb' 5 7 ++ rs2 ++ rs1 ++ funct3 ++ imm.extractLsb' 0 5 ++ opStore).cast rfl

def encodeB (funct3 : BitVec 3) (rs1 rs2 : RegIdx) (imm : BitVec 13) : Word :=
  (imm.extractLsb' 12 1 ++ imm.extractLsb' 5 6 ++ rs2 ++ rs1 ++ funct3 ++ imm.extractLsb' 1 4
    ++ imm.extractLsb' 11 1 ++ opBranch).cast rfl

def encodeJ (rd : RegIdx) (imm : BitVec 21) : Word :=
  (imm.extractLsb' 20 1 ++ imm.extractLsb' 1 10 ++ imm.extractLsb' 11 1 ++ imm.extractLsb' 12 8 ++ rd
    ++ opJal).cast rfl

/-- The word of an instruction. jalr is written with funct3 = 000 and NOP as the all-zero word, one of the many words
that decode to each (30_encoding.md R70, R71). DESIGN CHOICE, safe (log 7). -/
def encode : Instr → Word
  | .halt => haltWord
  | .add rd rs1 rs2 => encodeR 0b0000000#7 0b000#3 rd rs1 rs2
  | .sub rd rs1 rs2 => encodeR 0b0100000#7 0b000#3 rd rs1 rs2
  | .sll rd rs1 rs2 => encodeR 0b0000000#7 0b001#3 rd rs1 rs2
  | .slt rd rs1 rs2 => encodeR 0b0000000#7 0b010#3 rd rs1 rs2
  | .srl rd rs1 rs2 => encodeR 0b0000000#7 0b101#3 rd rs1 rs2
  | .or rd rs1 rs2 => encodeR 0b0000000#7 0b110#3 rd rs1 rs2
  | .and rd rs1 rs2 => encodeR 0b0000000#7 0b111#3 rd rs1 rs2
  | .addi rd rs1 imm => encodeI opImm 0b000#3 rd rs1 imm
  | .sltiu rd rs1 imm => encodeI opImm 0b011#3 rd rs1 imm
  | .jalr rd rs1 imm => encodeI opJalr 0b000#3 rd rs1 imm
  | .lw rd rs1 imm => encodeI opLoad 0b010#3 rd rs1 imm
  | .sw rs1 rs2 imm => encodeS 0b010#3 rs1 rs2 imm
  | .beq rs1 rs2 imm => encodeB 0b000#3 rs1 rs2 imm
  | .bne rs1 rs2 imm => encodeB 0b001#3 rs1 rs2 imm
  | .jal rd imm => encodeJ rd imm
  | .nop => 0x00000000#32

/-! The mask and match columns of spec/opcode_table.json (30_encoding.md R69). A word matches a row when its bits
under the mask are the match; HALT is looked for first and NOP is the default. No definition above reads them. -/

def rowMask : Kind → Word
  | .halt => 0xFFFFFFFF#32
  | .add => 0xFE00707F#32
  | .sub => 0xFE00707F#32
  | .sll => 0xFE00707F#32
  | .slt => 0xFE00707F#32
  | .srl => 0xFE00707F#32
  | .or => 0xFE00707F#32
  | .and => 0xFE00707F#32
  | .addi => 0x0000707F#32
  | .sltiu => 0x0000707F#32
  | .jalr => 0x0000007F#32
  | .lw => 0x0000707F#32
  | .sw => 0x0000707F#32
  | .beq => 0x0000707F#32
  | .bne => 0x0000707F#32
  | .jal => 0x0000007F#32
  | .nop => 0x00000000#32

def rowMatch : Kind → Word
  | .halt => 0x00000063#32
  | .add => 0x00000033#32
  | .sub => 0x40000033#32
  | .sll => 0x00001033#32
  | .slt => 0x00002033#32
  | .srl => 0x00005033#32
  | .or => 0x00006033#32
  | .and => 0x00007033#32
  | .addi => 0x00000013#32
  | .sltiu => 0x00003013#32
  | .jalr => 0x00000067#32
  | .lw => 0x00002003#32
  | .sw => 0x00002023#32
  | .beq => 0x00000063#32
  | .bne => 0x00001063#32
  | .jal => 0x0000006F#32
  | .nop => 0x00000000#32

/-- The word matches the kind's row of the opcode table. -/
def matchesRow (w : Word) (k : Kind) : Bool := w &&& rowMask k == rowMatch k

/-- The decoder on an instruction given as its first `nbits` bits, numbered as spec/opcode_table.json numbers them;
the bits above are 0. An instruction is one 32-bit word (30_encoding.md R60) and is stored as one word, so there is
no byte order (20_memory.md R46); more than 32 bits are no instruction. -/
def decodeTableWord (nbits w : Nat) : Option Instr :=
  if nbits ≤ 32 then some (decode (BitVec.ofNat 32 (w % 2 ^ nbits))) else none

end Sys2Proof
end

