-- ==== Sys2Proof/Config.lean ====
section
/-! DEFINITION. The block's parameters (00_scope.md R9): the literals the spec states, and the one parameter it
leaves open, DMEM_BASE, which nothing in this model can evaluate. -/

namespace Sys2Proof.Config

/-- RESET_PC (R9; 70_reset_and_hazards.md R231, decision D1). -/
def resetPc : Word := 0#32

/-- SP_RESET, the reset value of x2 (R9; 10_state.md R22, decision D14). -/
def spReset : Word := 380#32

/-- The most words a program may have: "0 <= N <= 2^30" (R9, decision D15). -/
def maxProgramWords : Nat := 2 ^ 30

/-- DMEM_WINDOW_WORDS (R9; 20_memory.md R41). -/
def windowWords : Nat := 32

/-- DMEM_WINDOW_STRIDE (R9; 20_memory.md R41). -/
def windowStride : Nat := 4

/-- The uninterpreted number behind DMEM_BASE. It has no body, so no proof can learn its value (log 4). -/
opaque windowChoice : Nat

/-- DMEM_BASE: "a multiple of 4 with DMEM_BASE + 124 < 2^32" (20_memory.md R41, decision D6), otherwise open.
Every base that R41 admits is 4 * (k mod (2^30 - 31)) for some k, and every such number is admitted.
DESIGN CHOICE, safe (log 4). -/
def dmemBase : Word := BitVec.ofNat 32 (4 * (windowChoice % (2 ^ 30 - 31)))

end Sys2Proof.Config
end

