-- ==== Sys2Proof/Machine/State.lean ====
section
/-! DEFINITION. The state of the block as plain data (10_state.md), the reasons a step can stop, and the state after
reset (10_state.md R34). -/

namespace Sys2Proof.Machine

/-- The run status (10_state.md R25). Every status but `running` is terminal. -/
inductive Status where
  /-- RUNNING. -/
  | running
  /-- HALTED_SENTINEL: the halt sentinel was fetched (40_execution_cycle.md R106). -/
  | haltedSentinel
  /-- HALTED_END: the pc addresses past the end of the program (40_execution_cycle.md R103). -/
  | haltedEnd
  /-- FAULT_PC_MISALIGNED: a fetch at a pc that is not a multiple of 4 (40_execution_cycle.md R102). -/
  | faultPcMisaligned
  /-- STOPPED_BUDGET: the host's step budget is spent (40_execution_cycle.md R104). -/
  | stoppedBudget
  deriving DecidableEq, Repr

/-- x0 to x31, in order (10_state.md R20). Slot 0 is x0; how it reads and is written is said once, in
Machine/Ops.lean (10_state.md R21; log 6). -/
abbrev RegFile := Vector Word 32

/-- One trace record: "the tuple (pc, x[0], x[1], ..., x[31])" (10_state.md R27). -/
structure TraceRecord where
  pc   : Word
  regs : RegFile
  deriving DecidableEq, Repr

/-- One data-memory cell: its key and its 32-bit value. The unit is the word, not the byte, because "the key is the
whole 32-bit address a; it is never divided by 4 or split into bytes" (20_memory.md R40; log 5). -/
abbrev MemCell := Nat × Word

/-- Data memory as the list of its nonzero cells, keys strictly rising; a key that is not listed holds 0, as after
reset (20_memory.md R40). -/
abbrev Memory := List MemCell

/-- Everything the spec gives the machine (10_state.md R34), and the host's STEP_BUDGET. -/
structure State where
  /-- The general registers (10_state.md R20). -/
  regs       : RegFile
  /-- The program counter (10_state.md R24). -/
  pc         : Word
  /-- The run status (10_state.md R25). -/
  status     : Status
  /-- Words fetched since reset, the sentinel included (10_state.md R26). -/
  steps      : Nat
  /-- The trace, oldest record first (10_state.md R27). -/
  trace      : List TraceRecord
  /-- The program: `imem[k]` is the word at instruction address 4k (10_state.md R28; 40_execution_cycle.md R101). -/
  imem       : List Word
  /-- Data memory (10_state.md R29). -/
  mem        : Memory
  /-- STEP_BUDGET, the host's parameter, fixed for a run: `none` or `some B` (40_execution_cycle.md R104).
  The model's own field (log 2). -/
  stepBudget : Option Nat
  deriving DecidableEq, Repr

/-- Why a step stops. No instruction stops: the block "raises no synchronous exception" (60_exceptions.md R200), and
FAULT_PC_MISALIGNED is a status, reached by a step that answers a next state. -/
inductive Fault where
  /-- Raised by `step` alone, in a state whose status is terminal: "In a terminal status the block takes no step and
  changes no state, until the next reset" (10_state.md R25). DESIGN CHOICE, safe (log 1). -/
  | runEnded (status : Status)
  deriving DecidableEq, Repr

/-- Why an instruction is refused. -/
inductive Refusal where
  /-- Raised by an arm of `exec` whose instruction has no meaning yet; no arm of this model raises it. Safe. -/
  | notModelled (mnemonic : String)
  deriving DecidableEq, Repr

/-- The state after reset (10_state.md R34; 70_reset_and_hazards.md R230): x2 = 380 and every other register 0,
pc = 0, RUNNING, no step, empty trace, every data key 0. The program is the host's; none is loaded yet (log 3), and no
budget is fixed yet (log 2). -/
def State.reset : State :=
  { regs := (Vector.replicate 32 0#32).set 2 Config.spReset
    pc := Config.resetPc
    status := .running
    steps := 0
    trace := []
    imem := []
    mem := []
    stepBudget := none }

end Sys2Proof.Machine
end

