-- ==== Sys2Proof/Machine/Memory.lean ====
section
/-! DEFINITION. The data memory (20_memory.md): a total map from 32-bit keys to 32-bit cells, held in one canonical
form. -/

namespace Sys2Proof.Machine

/-- The value every key has until it is written: "pre-populated to zero" (20_memory.md R40). -/
def unlistedCell : Word := 0#32

/-- The cell at a key, in a list of cells. -/
def cellAt : Memory → Nat → Word
  | [], _ => unlistedCell
  | (k', v') :: m, k => if k' = k then v' else cellAt m k

/-- Sets the cell at a key, keeping the keys rising and listing no cell that equals what an unlisted key reads as. -/
def setCell : Memory → Nat → Word → Memory
  | [], k, v => if v = unlistedCell then [] else [(k, v)]
  | (k', v') :: m, k, v =>
    if k < k' then (if v = unlistedCell then (k', v') :: m else (k, v) :: (k', v') :: m)
    else if k = k' then (if v = unlistedCell then m else (k, v) :: m)
    else (k', v') :: setCell m k v

/-- `MemRead(a, 4) = M[a]`: the cell whose key is exactly `a` (20_memory.md R40; 00_scope.md R13). -/
def Memory.read (m : Memory) (a : Word) : Word := cellAt m a.toNat

/-- `MemWrite(a, 4, v)` sets `M[a] <- v` and no other key (20_memory.md R40). -/
def Memory.write (m : Memory) (a v : Word) : Memory := setCell m a.toNat v

/-- The canonical form: keys strictly rising and below 2^32, no cell equal to what an unlisted key reads as. -/
abbrev Memory.wf (m : Memory) : Prop :=
  m.Pairwise (fun c d => c.1 < d.1) ∧ ∀ c ∈ m, c.1 < 2 ^ 32 ∧ c.2 ≠ unlistedCell

/-- Every listed key is a multiple of 4: "A store never writes a key whose low 2 bits are nonzero" (20_memory.md R44).
It is no part of the canonical form, but no step breaks it. -/
abbrev Memory.aligned (m : Memory) : Prop := ∀ c ∈ m, c.1 % 4 = 0

end Sys2Proof.Machine
end

