-- ==== Sys2Proof/Machine/Ops.lean ====
section
/-! DEFINITION. The state access primitives of 00_scope.md R13, each said once. The block has no exception entry and
no return from one (60_exceptions.md R203, R204); in their place stands `State.enter`, the only way a run ends. -/

namespace Sys2Proof.Machine

/-- `x[i]`: register 0 "always reads as 0" (10_state.md R21). -/
def RegFile.read (f : RegFile) (r : RegIdx) : Word := if r = 0#5 then 0#32 else f[r.toNat]'r.isLt

/-- `x[i] <- v`: "writes to register 0 are silently discarded" (10_state.md R21). -/
def RegFile.write (f : RegFile) (r : RegIdx) (v : Word) : RegFile := if r = 0#5 then f else f.set r.toNat v r.isLt

/-- The register file with `x[0] <- 0` forced (40_execution_cycle.md R108). -/
def RegFile.zeroForced (f : RegFile) : RegFile := f.set 0 0#32

def State.readReg (s : State) (r : RegIdx) : Word := s.regs.read r

def State.writeReg (s : State) (r : RegIdx) (v : Word) : State := { s with regs := s.regs.write r v }

/-- `pc <- t` (00_scope.md R13). -/
def State.setPc (s : State) (t : Word) : State := { s with pc := t }

/-- `pc + 4`, the address of the next instruction, modulo 2^32 (10_state.md R24). -/
def State.nextPc (s : State) : Word := s.pc + 4#32

/-- "Default PC advance is +4" (40_execution_cycle.md R107). -/
def State.advance (s : State) : State := s.setPc s.nextPc

/-- `MemRead(a, 4)`. -/
def State.loadWord (s : State) (a : Word) : Word := s.mem.read a

/-- `MemWrite(a, 4, v)`. -/
def State.storeWord (s : State) (a v : Word) : State := { s with mem := s.mem.write a v }

/-- The record `(pc, x[0], ..., x[31])` of a state, x0 as it reads (10_state.md R21, R27: "Every trace record shows
x0 = 0"). -/
def State.snapshot (s : State) : TraceRecord := { pc := s.pc, regs := s.regs.zeroForced }

/-- `emit(pc, x)` appends one trace record (00_scope.md R13). -/
def State.emit (s : State) : State := { s with trace := s.trace ++ [s.snapshot] }

/-- `enter S` "sets status <- S …, and nothing else in the state changes" (40_execution_cycle.md R111). -/
def State.enter (s : State) (st : Status) : State := { s with status := st }

/-- `steps <- steps + 1` (40_execution_cycle.md R106). -/
def State.countFetch (s : State) : State := { s with steps := s.steps + 1 }

/-- `x[0] <- 0` at the end of an executed step (40_execution_cycle.md R108). -/
def State.forceZero (s : State) : State := { s with regs := s.regs.zeroForced }

/-- The end of an executed step: x0 re-forced, then one record (40_execution_cycle.md R108). -/
def State.retire (s : State) : State := s.forceZero.emit

/-- Writes a result register and advances the pc: the tail of every computational instruction and of lw. -/
def State.finishWith (s : State) (rd : RegIdx) (v : Word) : State := (s.writeReg rd v).advance

end Sys2Proof.Machine
end

