-- ==== Sys2Proof/Machine/Flags.lean ====
section
/-! DEFINITION. Comparisons. The block has no status flag and no condition code (10_state.md R31): a comparison
"yields 1 or 0 as a 32-bit value" (00_scope.md R11), and a branch compares registers itself. -/

namespace Sys2Proof.Machine

/-- 1 or 0 as a 32-bit value (00_scope.md R11). -/
def truthWord (b : Bool) : Word := if b then 1#32 else 0#32

/-- `a <s b`: compares the two's-complement values (00_scope.md R11). -/
def lessSigned (a b : Word) : Bool := decide (a.toInt < b.toInt)

/-- `a <u b`: compares the unsigned values (00_scope.md R11). -/
def lessUnsigned (a b : Word) : Bool := decide (a.toNat < b.toNat)

end Sys2Proof.Machine
end

