-- ==== Sys2Proof/Machine/Operands.lean ====
section
/-! DEFINITION. Every operand form of the block: immediates, shift amounts, effective addresses, jump targets. -/

namespace Sys2Proof.Machine

/-- `x[rs2] & 0x1F`, 0 to 31 (41_alu.md R132, R134). -/
def shiftAmount (v : Word) : Nat := (v &&& 0x1F#32).toNat

/-- `EA = x[rs1] + imm_i`, modulo 2^32 and not masked (20_memory.md R43, R44). -/
def loadAddress (s : State) (rs1 : RegIdx) (imm : BitVec 12) : Word := s.readReg rs1 + sext imm

/-- `(x[rs1] + imm_s) & ~0x3`: store addresses "are word-aligned by masking off the low 2 bits" (20_memory.md R44). -/
def storeAddress (s : State) (rs1 : RegIdx) (imm : BitVec 12) : Word :=
  (s.readReg rs1 + sext imm) &&& 0xFFFFFFFC#32

/-- `(x[rs1] + imm_i) & 0xFFFFFFFE`: "with bit 0 cleared" (42_control_transfer.md R150). -/
def jalrTarget (s : State) (rs1 : RegIdx) (imm : BitVec 12) : Word :=
  (s.readReg rs1 + sext imm) &&& 0xFFFFFFFE#32

/-- `pc + imm_b` for a taken branch (42_control_transfer.md R151, R152). -/
def branchTarget (s : State) (imm : BitVec 13) : Word := s.pc + sext imm

/-- `pc + imm_j` (42_control_transfer.md R153). -/
def jalTarget (s : State) (imm : BitVec 21) : Word := s.pc + sext imm

end Sys2Proof.Machine
end

