-- ==== Sys2Proof/Machine/Alu.lean ====
section
/-! DEFINITION. The integer computational instructions (41_alu.md R130 to R138). Sources are read before rd is
written (00_scope.md R14), rd = x0 discards the result (10_state.md R21), and the next pc is pc + 4. -/

namespace Sys2Proof.Machine

/-- add (41_alu.md R130). -/
def execAdd (rd rs1 rs2 : RegIdx) (s : State) : Host.Outcome State Fault Refusal :=
  .next (s.finishWith rd (s.readReg rs1 + s.readReg rs2))

/-- sub (41_alu.md R131). -/
def execSub (rd rs1 rs2 : RegIdx) (s : State) : Host.Outcome State Fault Refusal :=
  .next (s.finishWith rd (s.readReg rs1 - s.readReg rs2))

/-- sll (41_alu.md R132). -/
def execSll (rd rs1 rs2 : RegIdx) (s : State) : Host.Outcome State Fault Refusal :=
  .next (s.finishWith rd (s.readReg rs1 <<< shiftAmount (s.readReg rs2)))

/-- slt, signed (41_alu.md R133; 90_conflicts.md C1). -/
def execSlt (rd rs1 rs2 : RegIdx) (s : State) : Host.Outcome State Fault Refusal :=
  .next (s.finishWith rd (truthWord (lessSigned (s.readReg rs1) (s.readReg rs2))))

/-- srl, logical (41_alu.md R134). -/
def execSrl (rd rs1 rs2 : RegIdx) (s : State) : Host.Outcome State Fault Refusal :=
  .next (s.finishWith rd (s.readReg rs1 >>> shiftAmount (s.readReg rs2)))

/-- or (41_alu.md R135). -/
def execOr (rd rs1 rs2 : RegIdx) (s : State) : Host.Outcome State Fault Refusal :=
  .next (s.finishWith rd (s.readReg rs1 ||| s.readReg rs2))

/-- and (41_alu.md R136). -/
def execAnd (rd rs1 rs2 : RegIdx) (s : State) : Host.Outcome State Fault Refusal :=
  .next (s.finishWith rd (s.readReg rs1 &&& s.readReg rs2))

/-- addi (41_alu.md R137). -/
def execAddi (rd rs1 : RegIdx) (imm : BitVec 12) (s : State) : Host.Outcome State Fault Refusal :=
  .next (s.finishWith rd (s.readReg rs1 + sext imm))

/-- sltiu: the sign-extended immediate, compared as unsigned (41_alu.md R138). -/
def execSltiu (rd rs1 : RegIdx) (imm : BitVec 12) (s : State) : Host.Outcome State Fault Refusal :=
  .next (s.finishWith rd (truthWord (lessUnsigned (s.readReg rs1) (sext imm))))

end Sys2Proof.Machine
end

