-- ==== Sys2Proof/Machine/ControlTransfer.lean ====
section
/-! DEFINITION. jalr, beq, bne and jal (42_control_transfer.md R150 to R153). A target that is not a multiple of 4 is
stored in pc all the same; the next fetch ends the run (40_execution_cycle.md R102). -/

namespace Sys2Proof.Machine

/-- jalr: the target from the old x[rs1], the link from the old pc, no default advance (42_control_transfer.md R150). -/
def execJalr (rd rs1 : RegIdx) (imm : BitVec 12) (s : State) : Host.Outcome State Fault Refusal :=
  .next ((s.writeReg rd s.nextPc).setPc (jalrTarget s rs1 imm))

/-- beq (42_control_transfer.md R151). -/
def execBeq (rs1 rs2 : RegIdx) (imm : BitVec 13) (s : State) : Host.Outcome State Fault Refusal :=
  .next (s.setPc (if s.readReg rs1 = s.readReg rs2 then branchTarget s imm else s.nextPc))

/-- bne (42_control_transfer.md R152). -/
def execBne (rs1 rs2 : RegIdx) (imm : BitVec 13) (s : State) : Host.Outcome State Fault Refusal :=
  .next (s.setPc (if s.readReg rs1 ≠ s.readReg rs2 then branchTarget s imm else s.nextPc))

/-- jal (42_control_transfer.md R153). -/
def execJal (rd : RegIdx) (imm : BitVec 21) (s : State) : Host.Outcome State Fault Refusal :=
  .next ((s.writeReg rd s.nextPc).setPc (jalTarget s imm))

end Sys2Proof.Machine
end

