-- ==== Sys2Proof/Machine/HaltNop.lean ====
section
/-! DEFINITION. The halt sentinel (40_execution_cycle.md R106) and the default no-op (44_default_noop.md R190). -/

namespace Sys2Proof.Machine

/-- HALT: one record with the sentinel's own address and the registers as they stand, then HALTED_SENTINEL.
"Registers, memory and pc are left unchanged" (40_execution_cycle.md R106). -/
def execHalt (s : State) : Host.Outcome State Fault Refusal := .next (s.emit.enter .haltedSentinel)

/-- NOP: `pc <- pc + 4`, "nothing else" (44_default_noop.md R190). -/
def execNop (s : State) : Host.Outcome State Fault Refusal := .next s.advance

end Sys2Proof.Machine
end

