-- ==== Sys2Proof/Machine/LoadStore.lean ====
section
/-! DEFINITION. lw and sw (43_load_store.md R170, R171). Only the store masks its address (20_memory.md R44). -/

namespace Sys2Proof.Machine

/-- lw (43_load_store.md R170). -/
def execLw (rd rs1 : RegIdx) (imm : BitVec 12) (s : State) : Host.Outcome State Fault Refusal :=
  .next (s.finishWith rd (s.loadWord (loadAddress s rs1 imm)))

/-- sw (43_load_store.md R171). -/
def execSw (rs1 rs2 : RegIdx) (imm : BitVec 12) (s : State) : Host.Outcome State Fault Refusal :=
  .next (s.storeWord (storeAddress s rs1 imm) (s.readReg rs2)).advance

end Sys2Proof.Machine
end

