-- ==== Sys2Proof/Machine/Cycle.lean ====
section
/-! DEFINITION. The execution cycle (40_execution_cycle.md R102 to R111), which Machine/Step.lean only calls. -/

namespace Sys2Proof.Machine

/-- `pc[1:0] != 00` (40_execution_cycle.md R102). -/
def State.pcMisaligned (s : State) : Bool := s.pc.extractLsb' 0 2 != 0#2

/-- `IMem[u(pc) / 4]`, and nothing where `u(pc) / 4 >= N` (40_execution_cycle.md R103, R106). -/
def State.fetchWord (s : State) : Option Word := s.imem[s.pc.toNat / 4]?

/-- "STEP_BUDGET = some B and steps >= B" (40_execution_cycle.md R104). -/
def State.budgetSpent (s : State) : Bool :=
  match s.stepBudget with
  | none => false
  | some b => decide (b ≤ s.steps)

/-- The end of a step that fetched: after every instruction but the sentinel x0 is re-forced and one record is emitted
(40_execution_cycle.md R108); the sentinel has emitted its own (R106). -/
def finishStep (i : Instr) : Host.Outcome State Fault Refusal → Host.Outcome State Fault Refusal
  | .next t => .next (if i = .halt then t else t.retire)
  | .fault f => .fault f
  | .refused r => .refused r

/-- Counts the fetched word, decodes it and executes it (40_execution_cycle.md R106 to R108). R106 compares the word
with the sentinel before dispatch; that is the first line of `decode` (30_encoding.md R68). -/
def runFetched (s : State) (w : Word) : Host.Outcome State Fault Refusal :=
  finishStep (decode w) (exec (decode w) s.countFetch)

/-- The whole step in the order of 40_execution_cycle.md R111 and 60_exceptions.md R202: misaligned pc, past the end,
budget, then the fetched word. It is "defined only when s.status = RUNNING"; in a terminal status the block takes no
step (10_state.md R25; log 1). -/
def cycle (s : State) : Host.Outcome State Fault Refusal :=
  if s.status = .running then
    if s.pcMisaligned then .next (s.enter .faultPcMisaligned)
    else
      match s.fetchWord with
      | none => .next (s.enter .haltedEnd)
      | some w => if s.budgetSpent then .next (s.enter .stoppedBudget) else runFetched s w
  else .fault (.runEnded s.status)

/-- A program with word `k` set to `w`, lengthened with all-zero words where it is shorter. -/
def placeWord : List Word → Nat → Word → List Word
  | [], 0, w => [w]
  | [], k + 1, w => 0#32 :: placeWord [] k w
  | _ :: p, 0, w => w :: p
  | x :: p, k + 1, w => x :: placeWord p k w

/-- The state with a word placed where the next step fetches, and with what that fetch needs: RUNNING, an aligned pc
and a budget that is not spent. At reset only the program changes (log 3). -/
def State.placeFetch (s : State) (w : Word) : State :=
  { s with
    status := .running
    pc := s.pc &&& 0xFFFFFFFC#32
    stepBudget := if s.budgetSpent then none else s.stepBudget
    imem := placeWord s.imem (s.pc.toNat / 4) w }

end Sys2Proof.Machine
end

