-- ==== Sys2Proof/Machine/Step.lean ====
section
/-! DEFINITION. One step of the block, and the placing of an instruction where it fetches. -/

namespace Sys2Proof.Machine

/-- One application of `step` (40_execution_cycle.md R100, R111). -/
def step (s : State) : Host.Outcome State Fault Refusal := cycle s

/-- `s` with the instruction whose first `nbits` bits are `w` (numbered as spec/opcode_table.json numbers them, the
bits above zero) stored where `step` fetches its next instruction: the host's load of a program (log 3). -/
def State.withFetchWord (s : State) (nbits w : Nat) : State := s.placeFetch (BitVec.ofNat 32 (w % 2 ^ nbits))

end Sys2Proof.Machine
end

