-- ==== Sys2Proof/Machine/Assembler.lean ====
section
/-! DEFINITION. The pseudo-instructions of 30_encoding.md R77 and the assembler text of R76. Both are assembler
spellings, which the spec marks as general knowledge; no step depends on them. PRESUMED, safe (log 13). -/

namespace Sys2Proof.Machine

/-- The pseudo-instructions that expand into instructions the block executes (30_encoding.md R77). `jalLink` is the
one-operand `jal off` and `jalrLink` the one-operand `jalr rs`. -/
inductive Pseudo where
  | nop
  | mv (rd rs : RegIdx)
  | li (rd : RegIdx) (imm : BitVec 12)
  | neg (rd rs : RegIdx)
  | seqz (rd rs : RegIdx)
  | sltz (rd rs : RegIdx)
  | sgtz (rd rs : RegIdx)
  | beqz (rs : RegIdx) (off : BitVec 13)
  | bnez (rs : RegIdx) (off : BitVec 13)
  | j (off : BitVec 21)
  | jalLink (off : BitVec 21)
  | jr (rs : RegIdx)
  | jalrLink (rs : RegIdx)
  | ret
  deriving DecidableEq, Repr

/-- The expansion column of 30_encoding.md R77. The pseudo `nop` is `addi x0, x0, 0`, not the default NOP. -/
def expandPseudo : Pseudo → Instr
  | .nop => .addi 0#5 0#5 0#12
  | .mv rd rs => .addi rd rs 0#12
  | .li rd imm => .addi rd 0#5 imm
  | .neg rd rs => .sub rd 0#5 rs
  | .seqz rd rs => .sltiu rd rs 1#12
  | .sltz rd rs => .slt rd rs 0#5
  | .sgtz rd rs => .slt rd 0#5 rs
  | .beqz rs off => .beq rs 0#5 off
  | .bnez rs off => .bne rs 0#5 off
  | .j off => .jal 0#5 off
  | .jalLink off => .jal 1#5 off
  | .jr rs => .jalr 0#5 rs 0#12
  | .jalrLink rs => .jalr 1#5 rs 0#12
  | .ret => .jalr 0#5 1#5 0#12

/-- A register as assembler text, x0 to x31 (30_encoding.md R76). -/
def regText (r : RegIdx) : String := "x" ++ toString r.toNat

/-- `op rd, rs1, rs2`. -/
def textRRR (op : String) (a b c : RegIdx) : String :=
  op ++ " " ++ regText a ++ ", " ++ regText b ++ ", " ++ regText c

/-- `op r, r, number`. -/
def textRRI (op : String) (a b : RegIdx) (n : Int) : String :=
  op ++ " " ++ regText a ++ ", " ++ regText b ++ ", " ++ toString n

/-- `op r, number(r)`. -/
def textRIB (op : String) (a : RegIdx) (n : Int) (b : RegIdx) : String :=
  op ++ " " ++ regText a ++ ", " ++ toString n ++ "(" ++ regText b ++ ")"

/-- An instruction as assembler text (30_encoding.md R76). R76 gives none for HALT and the default NOP; they are
written as 95_test_vectors.md writes them. -/
def assemblyText : Instr → String
  | .halt => "HALT"
  | .add rd rs1 rs2 => textRRR "add" rd rs1 rs2
  | .sub rd rs1 rs2 => textRRR "sub" rd rs1 rs2
  | .sll rd rs1 rs2 => textRRR "sll" rd rs1 rs2
  | .slt rd rs1 rs2 => textRRR "slt" rd rs1 rs2
  | .srl rd rs1 rs2 => textRRR "srl" rd rs1 rs2
  | .or rd rs1 rs2 => textRRR "or" rd rs1 rs2
  | .and rd rs1 rs2 => textRRR "and" rd rs1 rs2
  | .addi rd rs1 imm => textRRI "addi" rd rs1 imm.toInt
  | .sltiu rd rs1 imm => textRRI "sltiu" rd rs1 imm.toInt
  | .jalr rd rs1 imm => textRIB "jalr" rd imm.toInt rs1
  | .lw rd rs1 imm => textRIB "lw" rd imm.toInt rs1
  | .sw rs1 rs2 imm => textRIB "sw" rs2 imm.toInt rs1
  | .beq rs1 rs2 imm => textRRI "beq" rs1 rs2 imm.toInt
  | .bne rs1 rs2 imm => textRRI "bne" rs1 rs2 imm.toInt
  | .jal rd imm => "jal " ++ regText rd ++ ", " ++ toString imm.toInt
  | .nop => "NOP"

end Sys2Proof.Machine
end

