-- ==== Sys2Proof/Machine/Environment.lean ====
section
/-! DEFINITION. What the host can do to the block (60_exceptions.md R212): give it a program, reset it, fix the budget,
run it, and read the dump. The trace and the status are read as the fields `trace` and `status`
(40_execution_cycle.md R100, R109). -/

namespace Sys2Proof.Machine

/-! The program as text (40_execution_cycle.md R101). A line is a list of characters. -/

/-- The bit a character stands for. -/
def bitOfChar (c : Char) : Option Bool := if c = '1' then some true else if c = '0' then some false else none

/-- The word of a list of bits, "its first character is bit 31 and its last is bit 0" (40_execution_cycle.md R101). -/
def wordOfBits (bits : List Bool) : Word := bits.foldl (fun w b => (w <<< 1) ||| (if b then 1#32 else 0#32)) 0#32

/-- A line that is no character but white space. What "blank" means beyond the empty line is DESIGN CHOICE (log 12). -/
def blankLine (line : List Char) : Bool := line.all Char.isWhitespace

/-- The word of a line of 32 characters 0 and 1; nothing for any other line, which is "the host's concern"
(40_execution_cycle.md R101, decision D16; log 12). -/
def wordOfLine (line : List Char) : Option Word :=
  if line.length = 32 then (line.mapM bitOfChar).map wordOfBits else none

/-- The program of a text: "Blank lines are skipped", and the k-th other line is IMem[k]. -/
def programOfLines (lines : List (List Char)) : Option (List Word) :=
  (lines.filter (fun l => !blankLine l)).mapM wordOfLine

/-! Before the run (70_reset_and_hazards.md R232). -/

/-- No step has been taken since reset: a step fetches and counts, or ends the run. -/
def State.beforeRun (s : State) : Bool := decide (s.status = .running) && decide (s.steps = 0)

/-- Reset builds "a fresh instance"; "No state survives from an earlier run" (70_reset_and_hazards.md R230). -/
def State.hostReset (_ : State) : State := State.reset

/-- Load the program, N words with 0 <= N <= 2^30, only before the run (60_exceptions.md R212; log 14). -/
def State.loadProgram (s : State) (program : List Word) : Option State :=
  if s.beforeRun ∧ program.length ≤ Config.maxProgramWords then some { s with imem := program } else none

/-- Fix STEP_BUDGET, only before the run (60_exceptions.md R212; log 14). -/
def State.chooseBudget (s : State) (budget : Option Nat) : Option State :=
  if s.beforeRun then some { s with stepBudget := budget } else none

/-- Reset, load the program, fix the budget, in that order (70_reset_and_hazards.md R232), from any state. -/
def boot (s : State) (program : List Word) (budget : Option Nat) : Option State :=
  (s.hostReset.loadProgram program).bind (fun t => t.chooseBudget budget)

/-- The budget of the source's reference driver, B = N (40_execution_cycle.md R104). -/
def referenceBudget (program : List Word) : Option Nat := some program.length

/-! The run and its result (40_execution_cycle.md R112). -/

/-- Applies `step` while the status is RUNNING, at most `n` times. -/
def runFor : Nat → State → State
  | 0, s => s
  | n + 1, s =>
    match step s with
    | .next t => runFor n t
    | .fault _ => s
    | .refused _ => s

/-- The key of window word `k`: DMEM_BASE + 4k (20_memory.md R41). -/
def windowKey (base : Word) (k : Nat) : Word := base + BitVec.ofNat 32 (Config.windowStride * k)

/-- The pairs of key and value of the 32-word window at a base, "in ascending k" (40_execution_cycle.md R110). -/
def windowAt (base : Word) (s : State) : List (Word × Word) :=
  (List.range Config.windowWords).map (fun k => (windowKey base k, s.loadWord (windowKey base k)))

/-- The memory dump: "The dump may be read in every terminal status" (40_execution_cycle.md R110; log 15). -/
def memoryDump (s : State) : Option (List (Word × Word)) :=
  if s.status = .running then none else some (windowAt Config.dmemBase s)

end Sys2Proof.Machine
end

