-- ==== Sys2Proof/Safety.lean ====
section
/-! DEFINITION. What claims about a run rest on: which ends are normal, when a run is free of the pc fault, and the
invariant that reset has and every step keeps. -/

namespace Sys2Proof.Machine

/-- "Every status but RUNNING is terminal" (10_state.md R25). -/
def Status.terminal (st : Status) : Bool := decide (st ≠ .running)

/-- "HALTED_SENTINEL and HALTED_END are the source's normal ends" (40_execution_cycle.md R112). -/
def Status.normalEnd (st : Status) : Bool := decide (st = .haltedSentinel) || decide (st = .haltedEnd)

/-- No state of the first `n` steps is in FAULT_PC_MISALIGNED, the premise R112 asks of a claim about a program's
result (40_execution_cycle.md R112). -/
def FreeOfPcFault (n : Nat) (s : State) : Prop := ∀ k, k ≤ n → (runFor k s).status ≠ .faultPcMisaligned

/-- Why a state may have the status it has (40_execution_cycle.md R102 to R106). -/
def State.statusExplained (s : State) : Prop :=
  match s.status with
  | .running => True
  | .haltedSentinel => s.pcMisaligned = false ∧ s.fetchWord = some haltWord
  | .haltedEnd => s.pcMisaligned = false ∧ s.fetchWord = none
  | .faultPcMisaligned => s.pcMisaligned = true
  | .stoppedBudget => s.pcMisaligned = false ∧ s.budgetSpent = true

/-- The invariant of the block: it holds after reset and every step keeps it. -/
structure State.Inv (s : State) : Prop where
  /-- Data memory is in canonical form. -/
  memoryWf : s.mem.wf
  /-- No store has written a key whose low two bits are nonzero (20_memory.md R44). -/
  memoryAligned : s.mem.aligned
  /-- The slot of x0 holds 0 (10_state.md R21). -/
  zeroSlot : s.regs[0] = 0#32
  /-- Every trace record shows x0 = 0 (10_state.md R21). -/
  zeroInTrace : ∀ r ∈ s.trace, r.regs[0] = 0#32
  /-- "The trace has exactly one record per fetched word" (40_execution_cycle.md R113(c)). -/
  oneRecordPerFetch : s.trace.length = s.steps
  /-- The last record shows the pc and the registers as they stand (40_execution_cycle.md R108; 60_exceptions.md R200). -/
  lastRecord : ∀ r, s.trace.getLast? = some r → r = { pc := s.pc, regs := s.regs }
  /-- The program has at most 2^30 words (00_scope.md R9). -/
  programFits : s.imem.length ≤ Config.maxProgramWords
  /-- No more words are fetched than the budget allows (40_execution_cycle.md R104, R112). -/
  withinBudget : ∀ b, s.stepBudget = some b → s.steps ≤ b
  /-- A terminal status has its reason. -/
  explained : s.statusExplained

end Sys2Proof.Machine
end

