-- ==== Sys2Proof/Certificates/Slice0/Obligations.lean ====
section
/-! DEFINITION. The statements for the provers. Values are written with integers where the model computes with bit
vectors, so that a statement says more than the definition it is about. -/

open Sys2Proof Sys2Proof.Machine

namespace Sys2Proof.Claims

/-- What an instruction other than the sentinel never touches. -/
def Untouched (s t : State) : Prop :=
  t.status = s.status ∧ t.steps = s.steps ∧ t.trace = s.trace ∧ t.imem = s.imem ∧ t.stepBudget = s.stepBudget

/-- `i` completes in `s`: `rd` holds `v` (x0 discards it), the pc is `next`, every other register and every cell of
data memory is as before, and so is everything else. -/
def Computes (i : Instr) (s : State) (rd : RegIdx) (v next : Word) : Prop :=
  ∃ t, exec i s = .next t ∧ (∀ r, t.readReg r = if r = rd ∧ rd ≠ 0#5 then v else s.readReg r) ∧ t.pc = next ∧
    (∀ a, t.loadWord a = s.loadWord a) ∧ Untouched s t

/-- `i` completes in `s` with the pc at `next`, every register and every cell as before, and everything else too. -/
def OnlyMovesPc (i : Instr) (s : State) (next : Word) : Prop :=
  ∃ t, exec i s = .next t ∧ (∀ r, t.readReg r = s.readReg r) ∧ t.pc = next ∧
    (∀ a, t.loadWord a = s.loadWord a) ∧ Untouched s t

/-- The step fetches `w`: RUNNING, pc a multiple of 4 inside the program, budget not spent
(40_execution_cycle.md R102 to R104, R106). -/
def Fetches (s : State) (w : Word) : Prop :=
  s.status = .running ∧ s.pc.toNat % 4 = 0 ∧ s.imem[s.pc.toNat / 4]? = some w ∧
    ∀ b, s.stepBudget = some b → s.steps < b

/-- A jump or a branch, or the sentinel: the instructions after which the pc need not be pc + 4. -/
def Leaves : Instr → Bool
  | .halt => true
  | .add _ _ _ => false
  | .sub _ _ _ => false
  | .sll _ _ _ => false
  | .slt _ _ _ => false
  | .srl _ _ _ => false
  | .or _ _ _ => false
  | .and _ _ _ => false
  | .addi _ _ _ => false
  | .sltiu _ _ _ => false
  | .jalr _ _ _ => true
  | .lw _ _ _ => false
  | .sw _ _ _ => false
  | .beq _ _ _ => true
  | .bne _ _ _ => true
  | .jal _ _ => true
  | .nop => false

/-- The next pc of an executed instruction (40_execution_cycle.md R107); the sentinel leaves it (R106). -/
def NextPcOf (i : Instr) (s : State) : Word :=
  match i with
  | .halt => s.pc
  | .add _ _ _ => s.pc + 4#32
  | .sub _ _ _ => s.pc + 4#32
  | .sll _ _ _ => s.pc + 4#32
  | .slt _ _ _ => s.pc + 4#32
  | .srl _ _ _ => s.pc + 4#32
  | .or _ _ _ => s.pc + 4#32
  | .and _ _ _ => s.pc + 4#32
  | .addi _ _ _ => s.pc + 4#32
  | .sltiu _ _ _ => s.pc + 4#32
  | .jalr _ rs1 imm => jalrTarget s rs1 imm
  | .lw _ _ _ => s.pc + 4#32
  | .sw _ _ _ => s.pc + 4#32
  | .beq rs1 rs2 imm => if s.readReg rs1 = s.readReg rs2 then branchTarget s imm else s.pc + 4#32
  | .bne rs1 rs2 imm => if s.readReg rs1 = s.readReg rs2 then s.pc + 4#32 else branchTarget s imm
  | .jal _ imm => jalTarget s imm
  | .nop => s.pc + 4#32

/-- The one register an instruction may write: its rd, for the twelve instructions of 10_state.md R23. -/
def DestOf : Instr → Option RegIdx
  | .halt => none
  | .add rd _ _ => some rd
  | .sub rd _ _ => some rd
  | .sll rd _ _ => some rd
  | .slt rd _ _ => some rd
  | .srl rd _ _ => some rd
  | .or rd _ _ => some rd
  | .and rd _ _ => some rd
  | .addi rd _ _ => some rd
  | .sltiu rd _ _ => some rd
  | .jalr rd _ _ => some rd
  | .lw rd _ _ => some rd
  | .sw _ _ _ => none
  | .beq _ _ _ => none
  | .bne _ _ _ => none
  | .jal rd _ => some rd
  | .nop => none

/-- The one key an instruction stores to, computed as sw's meaning computes it (43_load_store.md R171). -/
def StoreKeyOf (i : Instr) (s : State) : Option Word :=
  match i with
  | .halt => none
  | .add _ _ _ => none
  | .sub _ _ _ => none
  | .sll _ _ _ => none
  | .slt _ _ _ => none
  | .srl _ _ _ => none
  | .or _ _ _ => none
  | .and _ _ _ => none
  | .addi _ _ _ => none
  | .sltiu _ _ _ => none
  | .jalr _ _ _ => none
  | .lw _ _ _ => none
  | .sw rs1 _ imm => some (storeAddress s rs1 imm)
  | .beq _ _ _ => none
  | .bne _ _ _ => none
  | .jal _ _ => none
  | .nop => none

end Sys2Proof.Claims

open Sys2Proof.Claims

/-! Encoding. -/

/-- 30_encoding.md R62, whole. -/
def Obligations.FieldsAreTheirBits : Prop :=
  ∀ w : Word, (opcodeOf w).toNat = w.toNat % 2 ^ 7 ∧ (rdOf w).toNat = w.toNat / 2 ^ 7 % 2 ^ 5 ∧
    (funct3Of w).toNat = w.toNat / 2 ^ 12 % 2 ^ 3 ∧ (rs1Of w).toNat = w.toNat / 2 ^ 15 % 2 ^ 5 ∧
    (rs2Of w).toNat = w.toNat / 2 ^ 20 % 2 ^ 5 ∧ (funct7Of w).toNat = w.toNat / 2 ^ 25 ∧
    decoderPorts w = { opcode := opcodeOf w, rd := rdOf w, funct3 := funct3Of w, rs1 := rs1Of w, rs2 := rs2Of w,
                       funct7 := funct7Of w, imm := (decoderPorts w).imm, kind := kindOf (decode w) }

/-- 30_encoding.md R63 to R66: the bits of each immediate, its range, and the instructions that use it; the decoder
block outputs 0 for R-type, HALT and NOP (R75). -/
def Obligations.ImmediatesAreAssembledFromTheirBits : Prop :=
  ∀ w : Word,
    ((∀ i, i < 12 → (immIOf w).getLsbD i = w.getLsbD (20 + i)) ∧
      -2048 ≤ (sext (immIOf w)).toInt ∧ (sext (immIOf w)).toInt ≤ 2047 ∧
      (sext (immIOf w)).toInt = (immIOf w).toInt ∧
      (kindOf (decode w) ∈ [Kind.addi, .sltiu, .jalr, .lw] → (decoderPorts w).imm = sext (immIOf w))) ∧
    ((∀ i, i < 7 → (immSOf w).getLsbD (5 + i) = w.getLsbD (25 + i)) ∧
      (∀ i, i < 5 → (immSOf w).getLsbD i = w.getLsbD (7 + i)) ∧
      -2048 ≤ (sext (immSOf w)).toInt ∧ (sext (immSOf w)).toInt ≤ 2047 ∧
      (sext (immSOf w)).toInt = (immSOf w).toInt ∧
      (kindOf (decode w) = .sw → (decoderPorts w).imm = sext (immSOf w))) ∧
    ((immBOf w).getLsbD 12 = w.getLsbD 31 ∧ (immBOf w).getLsbD 11 = w.getLsbD 7 ∧
      (∀ i, i < 6 → (immBOf w).getLsbD (5 + i) = w.getLsbD (25 + i)) ∧
      (∀ i, i < 4 → (immBOf w).getLsbD (1 + i) = w.getLsbD (8 + i)) ∧ (immBOf w).getLsbD 0 = false ∧
      -4096 ≤ (sext (immBOf w)).toInt ∧ (sext (immBOf w)).toInt ≤ 4094 ∧ (sext (immBOf w)).toInt % 2 = 0 ∧
      (sext (immBOf w)).toInt = (immBOf w).toInt ∧
      (kindOf (decode w) ∈ [Kind.beq, .bne] → (decoderPorts w).imm = sext (immBOf w))) ∧
    ((immJOf w).getLsbD 20 = w.getLsbD 31 ∧ (∀ i, i < 8 → (immJOf w).getLsbD (12 + i) = w.getLsbD (12 + i)) ∧
      (immJOf w).getLsbD 11 = w.getLsbD 20 ∧
      (∀ i, i < 10 → (immJOf w).getLsbD (1 + i) = w.getLsbD (21 + i)) ∧ (immJOf w).getLsbD 0 = false ∧
      -1048576 ≤ (sext (immJOf w)).toInt ∧ (sext (immJOf w)).toInt ≤ 1048574 ∧ (sext (immJOf w)).toInt % 2 = 0 ∧
      (sext (immJOf w)).toInt = (immJOf w).toInt ∧
      (kindOf (decode w) = .jal → (decoderPorts w).imm = sext (immJOf w))) ∧
    (kindOf (decode w) ∈ [Kind.halt, .add, .sub, .sll, .slt, .srl, .or, .and, .nop] → (decoderPorts w).imm = 0#32)

/-- 00_scope.md R12: a field whose top bit is 1 loses 2^N, modulo 2^32; any other is unchanged. -/
def Obligations.SignExtensionSubtractsTwoToTheWidth : Prop :=
  ∀ (n : Nat) (v : BitVec n), 0 < n → n ≤ 32 →
    (sext v).toNat = if v.getLsbD (n - 1) then v.toNat + 2 ^ 32 - 2 ^ n else v.toNat

/-- 30_encoding.md R67 to R71: the row of the decoded kind matches the word; a word that matches any other row but the
default is the sentinel, which also matches beq's row. -/
def Obligations.DecoderSelectsTheTableRow : Prop :=
  ∀ w : Word, matchesRow w (kindOf (decode w)) = true ∧
    ∀ k, k ≠ .nop → matchesRow w k = true → kindOf (decode w) = k ∨ (k = .beq ∧ w = 0x00000063#32 ∧ decode w = .halt)

/-- No bit of an operand is dropped: every well-formed instruction survives encoding and decoding. -/
def Obligations.DecodingTheEncodedWordGivesTheInstruction : Prop :=
  ∀ i : Instr, i.wellFormed = true → decode (encode i) = i

/-- The other direction, for every word but a NOP and a jalr with a funct3 that is not 000. Eight jalr words, one for
each funct3, have one meaning (30_encoding.md R70); that the one with funct3 000 comes back is the encoder's choice
(log 7, DESIGN CHOICE). -/
def Obligations.EncodingTheDecodedWordGivesTheWord : Prop :=
  ∀ w : Word, decode w ≠ .nop → (kindOf (decode w) = .jalr → funct3Of w = 0b000#3) → encode (decode w) = w

/-- Whatever the decoder answers is well formed: branch and jump offsets are even and the sentinel is no beq. -/
def Obligations.DecodedInstructionsAreWellFormed : Prop :=
  ∀ w : Word, (decode w).wellFormed = true

/-- Words of 95_test_vectors.md sections 2.1, 2.2 (add, sub) and 2.5 (lw), one or more for each family. -/
def Obligations.WordsOfTheSpecDecode : Prop :=
  decode 0b00000000001000001000000110110011#32 = .add 3#5 1#5 2#5 ∧
  decode 0b01000000001000001000000110110011#32 = .sub 3#5 1#5 2#5 ∧
  decode 0b00000000010100000000000010010011#32 = .addi 1#5 0#5 5#12 ∧
  decode 0b11111110001000001010111000100011#32 = .sw 1#5 2#5 (-4) ∧
  decode 0b00000000000000001010000110000011#32 = .lw 3#5 1#5 0#12 ∧
  decode 0b11111110001000001001110011100011#32 = .bne 1#5 2#5 (-8) ∧
  decode 0b00000000000100000000000011101111#32 = .jal 1#5 2048#21 ∧
  decode 0b00000000000000101111000011100111#32 = .jalr 1#5 5#5 0#12 ∧
  decode 0b00000000000000000000000001100011#32 = .halt ∧
  decode 0b01000000001000001101000110110011#32 = .nop

/-- 30_encoding.md R72: of the beq words with a zero offset, the one word 0x00000063 is HALT; any other is an ordinary
beq, which when taken leaves the pc where it is. -/
def Obligations.OnlyTheReservedZeroOffsetBeqHalts : Prop :=
  (opcodeOf 0x00000063#32 = 0b1100011#7 ∧ funct3Of 0x00000063#32 = 0b000#3 ∧ rs1Of 0x00000063#32 = 0#5 ∧
    rs2Of 0x00000063#32 = 0#5 ∧ immBOf 0x00000063#32 = 0#13 ∧ decode 0x00000063#32 = .halt) ∧
  ∀ (w : Word) (s : State), opcodeOf w = 0b1100011#7 → funct3Of w = 0b000#3 → immBOf w = 0#13 → w ≠ 0x00000063#32 →
    decode w = .beq (rs1Of w) (rs2Of w) 0#13 ∧
    (s.readReg (rs1Of w) = s.readReg (rs2Of w) → OnlyMovesPc (decode w) s s.pc)

/-- 41_alu.md R139 and 43_load_store.md R172, and the branch codes of 42_control_transfer.md R154: every function code
that no row lists is a NOP, which neither writes a register nor reads or writes memory. -/
def Obligations.UnlistedFunctionCodesAreNoOps : Prop :=
  ∀ (w : Word) (s : State),
    ((opcodeOf w = 0b0110011#7 ∧ (funct7Of w, funct3Of w) ∉ [(0b0000000#7, 0b000#3), (0b0100000#7, 0b000#3),
        (0b0000000#7, 0b001#3), (0b0000000#7, 0b010#3), (0b0000000#7, 0b101#3), (0b0000000#7, 0b110#3),
        (0b0000000#7, 0b111#3)]) ∨
      (opcodeOf w = 0b0010011#7 ∧ funct3Of w ∉ [0b000#3, 0b011#3]) ∨
      ((opcodeOf w = 0b0000011#7 ∨ opcodeOf w = 0b0100011#7) ∧ funct3Of w ≠ 0b010#3) ∨
      (opcodeOf w = 0b1100011#7 ∧ funct3Of w ∉ [0b000#3, 0b001#3])) →
    decode w = .nop ∧ OnlyMovesPc (decode w) s (s.pc + 4#32)

/-! Registers and reset. -/

/-- 10_state.md R21, whole: x0 reads 0, a write of it has no effect, an executed step re-forces it, and every record
a step appends shows x0 = 0. -/
def Obligations.RegisterZeroIsHardwired : Prop :=
  (∀ s : State, s.readReg 0#5 = 0#32) ∧ (∀ (s : State) (v : Word), s.writeReg 0#5 v = s) ∧
  ∀ s t : State, step s = .next t →
    (t.status = .running → t.regs[0] = 0#32) ∧ (∀ r ∈ t.trace, r ∈ s.trace ∨ r.regs[0] = 0#32)

/-- 10_state.md R34 and 70_reset_and_hazards.md R230, for what the spec gives; the program and the budget of
State.reset are the model's choice (logs 2 and 3) and are in BootFollowsResetLoadAndBudget. -/
def Obligations.ResetLeavesTheSpecsState : Prop :=
  ∀ s : State, (∀ r, s.hostReset.readReg r = if r = 2#5 then 0x0000017C#32 else 0#32) ∧ s.hostReset.pc = 0#32 ∧
    s.hostReset.status = .running ∧ s.hostReset.steps = 0 ∧ s.hostReset.trace = [] ∧
    (∀ a, s.hostReset.loadWord a = 0#32) ∧ s.hostReset = State.reset

/-- 70_reset_and_hazards.md R232 and 60_exceptions.md R212: reset, load, budget in that order give the reset state with
the host's program and budget, for every program of at most 2^30 words and from any state; neither can be changed once
a step has been taken (log 14). -/
def Obligations.BootFollowsResetLoadAndBudget : Prop :=
  (∀ (s : State) (p : List Word) (b : Option Nat), p.length ≤ 2 ^ 30 →
    boot s p b = some { State.reset with imem := p, stepBudget := b }) ∧
  (∀ (s : State) (p : List Word) (b : Option Nat), 2 ^ 30 < p.length → boot s p b = none) ∧
  ∀ (s t : State) (p : List Word) (b : Option Nat), step s = .next t →
    t.loadProgram p = none ∧ t.chooseBudget b = none

/-! Instructions: encoding, result, completion and frame. -/

/-- 41_alu.md R130. -/
def Obligations.AddWrapsModuloTwoToThe32 : Prop :=
  (∀ w : Word, w &&& 0xFE00707F#32 = 0x00000033#32 → decode w = .add (rdOf w) (rs1Of w) (rs2Of w)) ∧
  ∀ (s : State) (rd rs1 rs2 : RegIdx),
    Computes (.add rd rs1 rs2) s rd
      (BitVec.ofNat 32 (((s.readReg rs1).toNat + (s.readReg rs2).toNat) % 2 ^ 32)) (s.pc + 4#32)

/-- 41_alu.md R131. -/
def Obligations.SubWrapsOnBorrow : Prop :=
  (∀ w : Word, w &&& 0xFE00707F#32 = 0x40000033#32 → decode w = .sub (rdOf w) (rs1Of w) (rs2Of w)) ∧
  ∀ (s : State) (rd rs1 rs2 : RegIdx),
    Computes (.sub rd rs1 rs2) s rd
      (BitVec.ofInt 32 (((s.readReg rs1).toNat : Int) - ((s.readReg rs2).toNat : Int))) (s.pc + 4#32)

/-- 41_alu.md R132. -/
def Obligations.SllUsesTheLowFiveBits : Prop :=
  (∀ w : Word, w &&& 0xFE00707F#32 = 0x00001033#32 → decode w = .sll (rdOf w) (rs1Of w) (rs2Of w)) ∧
  ∀ (s : State) (rd rs1 rs2 : RegIdx),
    Computes (.sll rd rs1 rs2) s rd
      (BitVec.ofNat 32 ((s.readReg rs1).toNat * 2 ^ ((s.readReg rs2).toNat % 32))) (s.pc + 4#32)

/-- 41_alu.md R133; 90_conflicts.md C1: the comparison is signed. -/
def Obligations.SltComparesSigned : Prop :=
  (∀ w : Word, w &&& 0xFE00707F#32 = 0x00002033#32 → decode w = .slt (rdOf w) (rs1Of w) (rs2Of w)) ∧
  ∀ (s : State) (rd rs1 rs2 : RegIdx),
    Computes (.slt rd rs1 rs2) s rd
      (if (s.readReg rs1).toInt < (s.readReg rs2).toInt then 1#32 else 0#32) (s.pc + 4#32)

/-- 41_alu.md R134. -/
def Obligations.SrlShiftsInZeros : Prop :=
  (∀ w : Word, w &&& 0xFE00707F#32 = 0x00005033#32 → decode w = .srl (rdOf w) (rs1Of w) (rs2Of w)) ∧
  ∀ (s : State) (rd rs1 rs2 : RegIdx),
    Computes (.srl rd rs1 rs2) s rd
      (BitVec.ofNat 32 ((s.readReg rs1).toNat / 2 ^ ((s.readReg rs2).toNat % 32))) (s.pc + 4#32)

/-- 41_alu.md R135. -/
def Obligations.OrIsBitwise : Prop :=
  (∀ w : Word, w &&& 0xFE00707F#32 = 0x00006033#32 → decode w = .or (rdOf w) (rs1Of w) (rs2Of w)) ∧
  ∀ (s : State) (rd rs1 rs2 : RegIdx), ∃ v : Word,
    (∀ k, k < 32 → v.getLsbD k = ((s.readReg rs1).getLsbD k || (s.readReg rs2).getLsbD k)) ∧
    Computes (.or rd rs1 rs2) s rd v (s.pc + 4#32)

/-- 41_alu.md R136. -/
def Obligations.AndIsBitwise : Prop :=
  (∀ w : Word, w &&& 0xFE00707F#32 = 0x00007033#32 → decode w = .and (rdOf w) (rs1Of w) (rs2Of w)) ∧
  ∀ (s : State) (rd rs1 rs2 : RegIdx), ∃ v : Word,
    (∀ k, k < 32 → v.getLsbD k = ((s.readReg rs1).getLsbD k && (s.readReg rs2).getLsbD k)) ∧
    Computes (.and rd rs1 rs2) s rd v (s.pc + 4#32)

/-- 41_alu.md R137. -/
def Obligations.AddiAddsTheSignedImmediate : Prop :=
  (∀ w : Word, w &&& 0x0000707F#32 = 0x00000013#32 →
    decode w = .addi (rdOf w) (rs1Of w) (w.extractLsb' 20 12)) ∧
  ∀ (s : State) (rd rs1 : RegIdx) (imm : BitVec 12),
    Computes (.addi rd rs1 imm) s rd (BitVec.ofInt 32 ((s.readReg rs1).toInt + imm.toInt)) (s.pc + 4#32)

/-- 41_alu.md R138: the sign-extended immediate, taken modulo 2^32, against the unsigned register. -/
def Obligations.SltiuComparesUnsigned : Prop :=
  (∀ w : Word, w &&& 0x0000707F#32 = 0x00003013#32 →
    decode w = .sltiu (rdOf w) (rs1Of w) (w.extractLsb' 20 12)) ∧
  ∀ (s : State) (rd rs1 : RegIdx) (imm : BitVec 12),
    Computes (.sltiu rd rs1 imm) s rd
      (if ((s.readReg rs1).toNat : Int) < imm.toInt % 2 ^ 32 then 1#32 else 0#32) (s.pc + 4#32)

/-- 42_control_transfer.md R150: the target from the old x[rs1] with bit 0 cleared, the link from the old pc; any
funct3. -/
def Obligations.JalrClearsBitZeroAndLinks : Prop :=
  (∀ w : Word, w &&& 0x0000007F#32 = 0x00000067#32 →
    decode w = .jalr (rdOf w) (rs1Of w) (w.extractLsb' 20 12)) ∧
  ∀ (s : State) (rd rs1 : RegIdx) (imm : BitVec 12),
    Computes (.jalr rd rs1 imm) s rd (s.pc + 4#32)
      (BitVec.ofInt 32 (((s.readReg rs1).toNat + imm.toInt) - ((s.readReg rs1).toNat + imm.toInt) % 2))

/-- 42_control_transfer.md R151. -/
def Obligations.BeqBranchesWhenEqual : Prop :=
  (∀ w : Word, w &&& 0x0000707F#32 = 0x00000063#32 → w ≠ 0x00000063#32 →
    decode w = .beq (rs1Of w) (rs2Of w) (immBOf w)) ∧
  ∀ (s : State) (rs1 rs2 : RegIdx) (imm : BitVec 13),
    (s.readReg rs1 = s.readReg rs2 → OnlyMovesPc (.beq rs1 rs2 imm) s (BitVec.ofInt 32 (s.pc.toNat + imm.toInt))) ∧
    (s.readReg rs1 ≠ s.readReg rs2 → OnlyMovesPc (.beq rs1 rs2 imm) s (s.pc + 4#32))

/-- 42_control_transfer.md R152. -/
def Obligations.BneBranchesWhenDifferent : Prop :=
  (∀ w : Word, w &&& 0x0000707F#32 = 0x00001063#32 → decode w = .bne (rs1Of w) (rs2Of w) (immBOf w)) ∧
  ∀ (s : State) (rs1 rs2 : RegIdx) (imm : BitVec 13),
    (s.readReg rs1 ≠ s.readReg rs2 → OnlyMovesPc (.bne rs1 rs2 imm) s (BitVec.ofInt 32 (s.pc.toNat + imm.toInt))) ∧
    (s.readReg rs1 = s.readReg rs2 → OnlyMovesPc (.bne rs1 rs2 imm) s (s.pc + 4#32))

/-- 42_control_transfer.md R153. -/
def Obligations.JalLinksAndJumpsRelative : Prop :=
  (∀ w : Word, w &&& 0x0000007F#32 = 0x0000006F#32 → decode w = .jal (rdOf w) (immJOf w)) ∧
  ∀ (s : State) (rd : RegIdx) (imm : BitVec 21),
    Computes (.jal rd imm) s rd (s.pc + 4#32) (BitVec.ofInt 32 (s.pc.toNat + imm.toInt))

/-- 43_load_store.md R170: the key is x[rs1] + imm_i modulo 2^32, not masked. -/
def Obligations.LwReadsTheExactKey : Prop :=
  (∀ w : Word, w &&& 0x0000707F#32 = 0x00002003#32 →
    decode w = .lw (rdOf w) (rs1Of w) (w.extractLsb' 20 12)) ∧
  ∀ (s : State) (rd rs1 : RegIdx) (imm : BitVec 12),
    loadAddress s rs1 imm = BitVec.ofInt 32 ((s.readReg rs1).toNat + imm.toInt) ∧
    Computes (.lw rd rs1 imm) s rd (s.loadWord (loadAddress s rs1 imm)) (s.pc + 4#32)

/-- 43_load_store.md R171: the key is x[rs1] + imm_s modulo 2^32 with its low two bits cleared; every other cell and
every register is as before. The premise is the canonical form of memory, which StepsKeepTheInvariant keeps. -/
def Obligations.SwWritesTheMaskedKey : Prop :=
  (∀ w : Word, w &&& 0x0000707F#32 = 0x00002023#32 → decode w = .sw (rs1Of w) (rs2Of w) (immSOf w)) ∧
  ∀ (s : State) (rs1 rs2 : RegIdx) (imm : BitVec 12), s.mem.wf →
    ((storeAddress s rs1 imm).toNat : Int) =
      ((s.readReg rs1).toNat + imm.toInt) % 2 ^ 32 - ((s.readReg rs1).toNat + imm.toInt) % 4 ∧
    ∃ t, exec (.sw rs1 rs2 imm) s = .next t ∧
      (∀ a, t.loadWord a = if a = storeAddress s rs1 imm then s.readReg rs2 else s.loadWord a) ∧
      (∀ r, t.readReg r = s.readReg r) ∧ t.pc = s.pc + 4#32 ∧ Untouched s t

/-- 44_default_noop.md R190: the instruction moves only the pc; the step that fetches it counts, re-forces x0 and emits
one record. -/
def Obligations.NopOnlyAdvancesThePc : Prop :=
  (∀ s : State, OnlyMovesPc .nop s (s.pc + 4#32)) ∧
  ∀ (s : State) (w : Word), Fetches s w → decode w = .nop →
    step s = .next { s with
      pc := s.pc + 4#32, steps := s.steps + 1, regs := s.regs.set 0 0#32,
      trace := s.trace ++ [{ pc := s.pc + 4#32, regs := s.regs.set 0 0#32 }] }

/-- 40_execution_cycle.md R105, R106: the sentinel's own effect; registers, memory and pc are left unchanged. That exec
of HALT emits the record itself and leaves steps to the step that fetched it is the model's choice (log 16, DESIGN
CHOICE); the step as a whole is FetchedSentinelEndsTheRun. -/
def Obligations.HaltEmitsOneRecordAndStops : Prop :=
  (∀ w : Word, decode w = .halt ↔ w = 0x00000063#32) ∧
  ∀ s : State, ∃ t, exec .halt s = .next t ∧ t.status = .haltedSentinel ∧
    (∃ r, t.trace = s.trace ++ [r] ∧ r.pc = s.pc ∧ ∀ x, r.regs.read x = s.readReg x) ∧
    (∀ x, t.readReg x = s.readReg x) ∧ (∀ a, t.loadWord a = s.loadWord a) ∧ t.pc = s.pc ∧ t.steps = s.steps ∧
    t.imem = s.imem ∧ t.stepBudget = s.stepBudget

/-- 30_encoding.md R73; 10_state.md R21: a result written to x0 leaves what a NOP leaves, and a jump that links x0 only
moves the pc. -/
def Obligations.ResultsInRegisterZeroAreDiscarded : Prop :=
  ∀ (s : State) (rs1 rs2 : RegIdx) (imm : BitVec 12) (off : BitVec 21),
    (∀ i ∈ [Instr.add 0#5 rs1 rs2, .sub 0#5 rs1 rs2, .sll 0#5 rs1 rs2, .slt 0#5 rs1 rs2, .srl 0#5 rs1 rs2,
        .or 0#5 rs1 rs2, .and 0#5 rs1 rs2, .addi 0#5 rs1 imm, .sltiu 0#5 rs1 imm, .lw 0#5 rs1 imm],
      exec i s = exec .nop s) ∧
    (∃ p, exec (.jalr 0#5 rs1 imm) s = .next { s with pc := p }) ∧
    (∃ p, exec (.jal 0#5 off) s = .next { s with pc := p })

/-- 20_memory.md R44: where no store has written an unaligned key, "an lw whose EA is not a multiple of 4 always
returns 0". -/
def Obligations.UnalignedLoadGivesZero : Prop :=
  ∀ (s : State) (rd rs1 : RegIdx) (imm : BitVec 12), s.mem.aligned →
    ((s.readReg rs1).toNat + imm.toInt) % 4 ≠ 0 → Computes (.lw rd rs1 imm) s rd 0#32 (s.pc + 4#32)

/-- 30_encoding.md R77: the pseudo-instructions do what their names say. -/
def Obligations.PseudoInstructionsDoWhatTheySay : Prop :=
  ∀ (s : State) (rd rs : RegIdx) (imm : BitVec 12) (off : BitVec 13) (joff : BitVec 21),
    OnlyMovesPc (expandPseudo .nop) s (s.pc + 4#32) ∧
    Computes (expandPseudo (.mv rd rs)) s rd (s.readReg rs) (s.pc + 4#32) ∧
    Computes (expandPseudo (.li rd imm)) s rd (BitVec.ofInt 32 imm.toInt) (s.pc + 4#32) ∧
    Computes (expandPseudo (.neg rd rs)) s rd (BitVec.ofInt 32 (-(s.readReg rs).toInt)) (s.pc + 4#32) ∧
    Computes (expandPseudo (.seqz rd rs)) s rd (if s.readReg rs = 0#32 then 1#32 else 0#32) (s.pc + 4#32) ∧
    Computes (expandPseudo (.sltz rd rs)) s rd (if (s.readReg rs).toInt < 0 then 1#32 else 0#32) (s.pc + 4#32) ∧
    Computes (expandPseudo (.sgtz rd rs)) s rd (if 0 < (s.readReg rs).toInt then 1#32 else 0#32) (s.pc + 4#32) ∧
    OnlyMovesPc (expandPseudo (.beqz rs off)) s
      (if s.readReg rs = 0#32 then BitVec.ofInt 32 (s.pc.toNat + off.toInt) else s.pc + 4#32) ∧
    OnlyMovesPc (expandPseudo (.bnez rs off)) s
      (if s.readReg rs = 0#32 then s.pc + 4#32 else BitVec.ofInt 32 (s.pc.toNat + off.toInt)) ∧
    OnlyMovesPc (expandPseudo (.j joff)) s (BitVec.ofInt 32 (s.pc.toNat + joff.toInt)) ∧
    Computes (expandPseudo (.jalLink joff)) s 1#5 (s.pc + 4#32) (BitVec.ofInt 32 (s.pc.toNat + joff.toInt)) ∧
    OnlyMovesPc (expandPseudo (.jr rs)) s (BitVec.ofNat 32 ((s.readReg rs).toNat / 2 * 2)) ∧
    Computes (expandPseudo (.jalrLink rs)) s 1#5 (s.pc + 4#32) (BitVec.ofNat 32 ((s.readReg rs).toNat / 2 * 2)) ∧
    OnlyMovesPc (expandPseudo .ret) s (BitVec.ofNat 32 ((s.readReg 1#5).toNat / 2 * 2))

/-! The step. -/

/-- 40_execution_cycle.md R102, R103, R104: the three ends before a fetch, in that order, each changing the status and
nothing else. -/
def Obligations.StepChecksComeInOrder : Prop :=
  ∀ s : State, s.status = .running →
    (s.pc.toNat % 4 ≠ 0 → step s = .next { s with status := .faultPcMisaligned }) ∧
    (s.pc.toNat % 4 = 0 → s.imem.length ≤ s.pc.toNat / 4 → step s = .next { s with status := .haltedEnd }) ∧
    (∀ b, s.pc.toNat % 4 = 0 → s.pc.toNat / 4 < s.imem.length → s.stepBudget = some b → b ≤ s.steps →
      step s = .next { s with status := .stoppedBudget })

/-- 40_execution_cycle.md R106 to R108: a step runs the decoded instruction on the state with the fetch counted, then
re-forces x0 and emits one record with the new pc. That the fetch is counted before exec, and that around the sentinel
step adds nothing to exec of HALT, is how the model divides the step (log 16, DESIGN CHOICE). -/
def Obligations.StepRunsTheDecodedInstruction : Prop :=
  ∀ (s : State) (w : Word), Fetches s w →
    (decode w = .halt → step s = exec .halt { s with steps := s.steps + 1 }) ∧
    (decode w ≠ .halt → ∃ t, exec (decode w) { s with steps := s.steps + 1 } = .next t ∧
      step s = .next { t with
        regs := t.regs.set 0 0#32
        trace := t.trace ++ [{ pc := t.pc, regs := t.regs.set 0 0#32 }] } ∧ t.status = .running)

/-- 40_execution_cycle.md R106, whole: a fetch counts the word; the fetched sentinel emits one record with its own
address and ends the run, and registers, memory and pc are left unchanged. -/
def Obligations.FetchedSentinelEndsTheRun : Prop :=
  (∀ (s : State) (w : Word), Fetches s w → ∃ t, step s = .next t ∧ t.steps = s.steps + 1) ∧
  ∀ s : State, Fetches s 0x00000063#32 →
    step s = .next { s with
      steps := s.steps + 1, status := .haltedSentinel,
      trace := s.trace ++ [{ pc := s.pc, regs := s.regs.set 0 0#32 }] }

/-- "In a terminal status the block takes no step and changes no state" (10_state.md R25); that step then answers the
stop runEnded is the model's choice (log 1). -/
def Obligations.TerminalStatusTakesNoStep : Prop :=
  ∀ s : State, s.status ≠ .running →
    step s = .fault (.runEnded s.status) ∧ (∀ n, runFor n s = s) ∧
    ∀ t : State, t.status = .running → ∃ u, step t = .next u

/-- 40_execution_cycle.md R108, R113(c); 10_state.md R27: a step that fetches appends exactly one record, which shows
the state it leaves; a step that does not ends the run and appends none. -/
def Obligations.EachFetchAppendsOneRecord : Prop :=
  ∀ s t : State, step s = .next t →
    (t.steps = s.steps + 1 ∧ (t.status = .running ∨ t.status = .haltedSentinel) ∧
      ∃ r, t.trace = s.trace ++ [r] ∧ r.pc = t.pc ∧ ∀ x, r.regs.read x = t.readReg x) ∨
    (t.steps = s.steps ∧ t.status ≠ .running ∧ t.status ≠ .haltedSentinel ∧ t = { s with status := t.status })

/-! Whole-machine rules. -/

/-- 10_state.md R23: only twelve instructions write a register, and each only its rd. -/
def Obligations.OnlyRdIsWritten : Prop :=
  ∀ (i : Instr) (s t : State) (r : RegIdx), exec i s = .next t → t.readReg r ≠ s.readReg r →
    (∃ rs1 rs2, i ∈ [Instr.add r rs1 rs2, .sub r rs1 rs2, .sll r rs1 rs2, .slt r rs1 rs2, .srl r rs1 rs2,
      .or r rs1 rs2, .and r rs1 rs2]) ∨
    (∃ rs1 imm, i ∈ [Instr.addi r rs1 imm, .sltiu r rs1 imm, .lw r rs1 imm, .jalr r rs1 imm]) ∨
    (∃ imm, i = .jal r imm)

/-- 40_execution_cycle.md R107, whole; 60_exceptions.md R203: a step that executes an instruction changes no register
but the rd of the decoded instruction and no memory cell but the key a decoded sw stores to, and no instruction has
both; control goes to pc + 4 but where jal, jalr or a taken branch sends it. -/
def Obligations.OneRegisterOrOneCellAndThePc : Prop :=
  ∀ s t : State, s.mem.wf → step s = .next t → t.status = .running →
    ∃ w, Fetches s w ∧
      (∀ r, DestOf (decode w) ≠ some r → t.readReg r = s.readReg r) ∧
      (∀ a, StoreKeyOf (decode w) s ≠ some a → t.loadWord a = s.loadWord a) ∧
      (DestOf (decode w) = none ∨ StoreKeyOf (decode w) s = none) ∧
      t.pc = NextPcOf (decode w) s

/-- 44_default_noop.md R192: "No encoding other than 0x00000063 stops the block": a step that fetches any other word
stays RUNNING, and HALTED_SENTINEL is entered only by fetching that word; every other word under opcode 1100011 is a
beq (funct3 000), a bne (001) or a NOP. -/
def Obligations.OnlyTheSentinelWordStopsTheBlock : Prop :=
  (∀ w : Word, opcodeOf w = 0b1100011#7 → w ≠ 0x00000063#32 →
    (funct3Of w = 0b000#3 → decode w = .beq (rs1Of w) (rs2Of w) (immBOf w)) ∧
    (funct3Of w = 0b001#3 → decode w = .bne (rs1Of w) (rs2Of w) (immBOf w)) ∧
    (0b010#3 ≤ funct3Of w → decode w = .nop)) ∧
  (∀ (s : State) (w : Word), Fetches s w → w ≠ 0x00000063#32 → ∃ t, step s = .next t ∧ t.status = .running) ∧
  ∀ s t : State, step s = .next t → t.status = .haltedSentinel → Fetches s 0x00000063#32

/-- 10_state.md R28; 20_memory.md R47; 60_exceptions.md R212: no step changes the program or the budget, and no step
writes data memory but a store. -/
def Obligations.ProgramAndBudgetNeverChange : Prop :=
  ∀ s t : State, step s = .next t →
    t.imem = s.imem ∧ t.stepBudget = s.stepBudget ∧
    (t.mem ≠ s.mem → ∃ w rs1 rs2 imm, Fetches s w ∧ decode w = .sw rs1 rs2 imm)

/-- 10_state.md R26, R27: no instruction reads the trace or the step counter: two states that differ in them alone go
to states that differ in them alone. -/
def Obligations.TraceAndStepsAreInvisible : Prop :=
  ∀ (i : Instr) (s t : State) (tr : List TraceRecord) (n : Nat), exec i s = .next t →
    ∃ u, exec i { s with trace := tr, steps := n } = .next u ∧ u.regs = t.regs ∧ u.pc = t.pc ∧ u.mem = t.mem ∧
      u.status = t.status ∧ u.imem = t.imem ∧ u.stepBudget = t.stepBudget

/-- 20_memory.md R50; 70_reset_and_hazards.md R233: a load in the very next step returns the value just stored at its
key, and otherwise what the key held before. -/
def Obligations.NextLoadSeesTheStore : Prop :=
  ∀ (s t u : State) (w w' : Word) (rs1 rs2 rd base : RegIdx) (imm off : BitVec 12), s.mem.wf →
    Fetches s w → decode w = .sw rs1 rs2 imm → step s = .next t →
    Fetches t w' → decode w' = .lw rd base off → step t = .next u →
    u.readReg rd = if rd = 0#5 then 0#32
      else if loadAddress t base off = storeAddress s rs1 imm then s.readReg rs2
      else s.loadWord (loadAddress t base off)

/-- The canonical form does its work: memories that read the same at every key are the same data
(20_memory.md R40; log 5). -/
def Obligations.EqualReadsMeanEqualMemories : Prop :=
  ∀ m n : Memory, m.wf → n.wf → (∀ a : Word, m.read a = n.read a) → m = n

/-! Invariants and runs. -/

/-- Every step keeps the invariant, from every state that meets it. -/
def Obligations.StepsKeepTheInvariant : Prop :=
  ∀ s t : State, s.Inv → step s = .next t → t.Inv

/-- The state after reset meets the invariant, and so does every booted one. -/
def Obligations.BootedStatesMeetTheInvariant : Prop :=
  State.reset.Inv ∧ ∀ (s t : State) (p : List Word) (b : Option Nat), boot s p b = some t → t.Inv

/-- 40_execution_cycle.md R112: with a budget B a run takes at most B fetches, so it ends within B + 1 steps. -/
def Obligations.BudgetBoundsEveryRun : Prop :=
  ∀ (s : State) (b : Nat), s.stepBudget = some b → s.steps ≤ b →
    (runFor (b - s.steps + 1) s).status ≠ .running ∧ ∀ n, (runFor n s).steps ≤ b

/-- 40_execution_cycle.md R113(b): in a run that does not enter FAULT_PC_MISALIGNED by its next step the pc is a
multiple of 4; in one that enters it, every state before the last executed instruction's has an aligned pc, and the
fault leaves everything but the status as that instruction left it (60_exceptions.md R200). -/
def Obligations.PcStaysAlignedWithoutThePcFault : Prop :=
  ∀ (s t : State) (p : List Word) (b : Option Nat) (n : Nat), boot s p b = some t →
    (FreeOfPcFault (n + 1) t → (runFor n t).pc.toNat % 4 = 0) ∧
    ((runFor (n + 1) t).status = .faultPcMisaligned → (runFor n t).status = .running →
      runFor (n + 1) t = { runFor n t with status := .faultPcMisaligned } ∧ (runFor n t).pc.toNat % 4 ≠ 0 ∧
      ∀ k, k < n → (runFor k t).pc.toNat % 4 = 0)

/-- 90_conflicts.md C4; 40_execution_cycle.md R104: a program with no jump, branch or sentinel runs all its N words and
then ends HALTED_END, with no budget or with the reference budget N. A program of 2^30 words does not: see
LongestStraightLineProgramWraps. -/
def Obligations.StraightLineProgramsRunToTheirEnd : Prop :=
  ∀ (s t : State) (p : List Word) (b : Option Nat), p.length < 2 ^ 30 → (∀ w ∈ p, Leaves (decode w) = false) →
    (b = none ∨ b = referenceBudget p) → boot s p b = some t →
    (runFor (p.length + 1) t).status = .haltedEnd ∧ (runFor (p.length + 1) t).steps = p.length ∧
    (runFor (p.length + 1) t).trace.length = p.length ∧ (runFor (p.length + 1) t).pc.toNat = 4 * p.length

/-- 10_state.md R24; 40_execution_cycle.md R103, R104: the longest program, 2^30 words with no jump, branch or sentinel,
comes back to pc 0 after its last word, since pc sums wrap (log 10): the reference budget then stops it, and without a
budget it runs its first word again. -/
def Obligations.LongestStraightLineProgramWraps : Prop :=
  ∀ (s t : State) (p : List Word) (b : Option Nat), p.length = 2 ^ 30 → (∀ w ∈ p, Leaves (decode w) = false) →
    (b = none ∨ b = referenceBudget p) → boot s p b = some t →
    (runFor p.length t).status = .running ∧ (runFor p.length t).steps = p.length ∧ (runFor p.length t).pc = 0#32 ∧
    (b = referenceBudget p → (runFor (p.length + 1) t).status = .stoppedBudget) ∧
    (b = none → (runFor (p.length + 1) t).status = .running ∧ (runFor (p.length + 1) t).steps = p.length + 1)

/-! The host's side. -/

/-- 40_execution_cycle.md R110; 20_memory.md R41: in a terminal status the dump is the 32 pairs of key and cell in
ascending order, at a base that is a multiple of 4 and does not wrap; while RUNNING there is none (log 15). -/
def Obligations.DumpShowsTheWindow : Prop :=
  Config.dmemBase.toNat % 4 = 0 ∧ Config.dmemBase.toNat + 124 < 2 ^ 32 ∧
  (∀ s : State, s.status = .running → memoryDump s = none) ∧
  ∀ s : State, s.status ≠ .running → ∃ d, memoryDump s = some d ∧ d.length = 32 ∧
    ∀ k, k < 32 → ∃ a : Word, a.toNat = Config.dmemBase.toNat + 4 * k ∧ d[k]? = some (a, s.loadWord a)

/-- 40_execution_cycle.md R101: the k-th character of a line is bit 31 - k; the empty line is blank and a line of 32
characters 0 and 1 is not; blank lines are skipped. What else is blank is the model's choice (log 12). -/
def Obligations.ProgramTextIsMostSignificantBitFirst : Prop :=
  (∀ cs : List Char, cs.length = 32 → (∀ c ∈ cs, c = '0' ∨ c = '1') →
    blankLine cs = false ∧ ∃ w, wordOfLine cs = some w ∧ ∀ k, k < 32 → (w.getLsbD (31 - k) = true ↔ cs[k]? = some '1')) ∧
  blankLine [] = true ∧
  ∀ (lines : List (List Char)) (words : List Word),
    programOfLines lines = some words ↔
      (lines.filter (fun l => !blankLine l)).map wordOfLine = words.map some
end

