-- ==== Sys2Proof/Laws/Decode.lean ====
section
/-! SUPPORT. The fields of an encoded word (30_encoding.md R61, R62), and what a table row's mask says of a word's
fields. -/

namespace Sys2Proof

/-- A field that a mask covers is the same in the masked word: a table row's match fixes it. -/
theorem extract_of_mask {w mask val : Word} (h : w &&& mask = val) (lo n : Nat)
    (hm : mask.extractLsb' lo n = BitVec.allOnes n) : w.extractLsb' lo n = val.extractLsb' lo n := by
  rw [← h]
  apply BitVec.eq_of_getLsbD_eq
  intro i hi
  have hb : (mask.extractLsb' lo n).getLsbD i = true := by rw [hm]; simp [hi]
  simp [hi] at hb
  simp [hi, hb]

/-- The bit of a word at a place is the bit of the field that covers the place. -/
theorem getLsbD_of_extract {w : Word} {lo n i : Nat} (h1 : lo ≤ i) (h2 : i < lo + n) :
    w.getLsbD i = (w.extractLsb' lo n).getLsbD (i - lo) := by
  have h3 : i - lo < n := by omega
  simp [h3, show lo + (i - lo) = i by omega]

theorem fields_encodeR (f7 : BitVec 7) (f3 : BitVec 3) (rd rs1 rs2 : RegIdx) :
    opcodeOf (encodeR f7 f3 rd rs1 rs2) = opReg ∧ rdOf (encodeR f7 f3 rd rs1 rs2) = rd ∧
    funct3Of (encodeR f7 f3 rd rs1 rs2) = f3 ∧ rs1Of (encodeR f7 f3 rd rs1 rs2) = rs1 ∧
    rs2Of (encodeR f7 f3 rd rs1 rs2) = rs2 ∧ funct7Of (encodeR f7 f3 rd rs1 rs2) = f7 := by
  refine ⟨?_, ?_, ?_, ?_, ?_, ?_⟩ <;> apply BitVec.eq_of_getLsbD_eq <;> intro i hi <;>
    simp only [encodeR, opcodeOf, rdOf, funct3Of, rs1Of, rs2Of, funct7Of, BitVec.getLsbD_extractLsb',
      BitVec.getLsbD_cast, BitVec.getLsbD_append] <;> interval_cases i <;> simp

theorem fields_encodeI (op : BitVec 7) (f3 : BitVec 3) (rd rs1 : RegIdx) (imm : BitVec 12) :
    opcodeOf (encodeI op f3 rd rs1 imm) = op ∧ rdOf (encodeI op f3 rd rs1 imm) = rd ∧
    funct3Of (encodeI op f3 rd rs1 imm) = f3 ∧ rs1Of (encodeI op f3 rd rs1 imm) = rs1 ∧
    immIOf (encodeI op f3 rd rs1 imm) = imm := by
  refine ⟨?_, ?_, ?_, ?_, ?_⟩ <;> apply BitVec.eq_of_getLsbD_eq <;> intro i hi <;>
    simp only [encodeI, opcodeOf, rdOf, funct3Of, rs1Of, immIOf, BitVec.getLsbD_extractLsb',
      BitVec.getLsbD_cast, BitVec.getLsbD_append] <;> interval_cases i <;> simp

theorem fields_encodeS (f3 : BitVec 3) (rs1 rs2 : RegIdx) (imm : BitVec 12) :
    opcodeOf (encodeS f3 rs1 rs2 imm) = opStore ∧ funct3Of (encodeS f3 rs1 rs2 imm) = f3 ∧
    rs1Of (encodeS f3 rs1 rs2 imm) = rs1 ∧ rs2Of (encodeS f3 rs1 rs2 imm) = rs2 ∧
    immSOf (encodeS f3 rs1 rs2 imm) = imm := by
  refine ⟨?_, ?_, ?_, ?_, ?_⟩ <;> apply BitVec.eq_of_getLsbD_eq <;> intro i hi <;>
    simp only [encodeS, opcodeOf, funct3Of, rs1Of, rs2Of, immSOf, BitVec.getLsbD_extractLsb',
      BitVec.getLsbD_cast, BitVec.getLsbD_append] <;> interval_cases i <;> simp

theorem fields_encodeB (f3 : BitVec 3) (rs1 rs2 : RegIdx) (imm : BitVec 13) :
    opcodeOf (encodeB f3 rs1 rs2 imm) = opBranch ∧ funct3Of (encodeB f3 rs1 rs2 imm) = f3 ∧
    rs1Of (encodeB f3 rs1 rs2 imm) = rs1 ∧ rs2Of (encodeB f3 rs1 rs2 imm) = rs2 := by
  refine ⟨?_, ?_, ?_, ?_⟩ <;> apply BitVec.eq_of_getLsbD_eq <;> intro i hi <;>
    simp only [encodeB, opcodeOf, funct3Of, rs1Of, rs2Of, BitVec.getLsbD_extractLsb',
      BitVec.getLsbD_cast, BitVec.getLsbD_append] <;> interval_cases i <;> simp

theorem immBOf_encodeB (f3 : BitVec 3) (rs1 rs2 : RegIdx) {imm : BitVec 13} (h : evenImmB imm = true) :
    immBOf (encodeB f3 rs1 rs2 imm) = imm := by
  have h0 : imm[0] = false := by simpa [evenImmB] using h
  apply BitVec.eq_of_getLsbD_eq
  intro i hi
  simp only [encodeB, immBOf, BitVec.getLsbD_extractLsb', BitVec.getLsbD_cast, BitVec.getLsbD_append]
  interval_cases i <;> simp [h0]

theorem fields_encodeJ (rd : RegIdx) (imm : BitVec 21) :
    opcodeOf (encodeJ rd imm) = opJal ∧ rdOf (encodeJ rd imm) = rd := by
  refine ⟨?_, ?_⟩ <;> apply BitVec.eq_of_getLsbD_eq <;> intro i hi <;>
    simp only [encodeJ, opcodeOf, rdOf, BitVec.getLsbD_extractLsb', BitVec.getLsbD_cast,
      BitVec.getLsbD_append] <;> interval_cases i <;> simp

theorem immJOf_encodeJ (rd : RegIdx) {imm : BitVec 21} (h : evenImmJ imm = true) :
    immJOf (encodeJ rd imm) = imm := by
  have h0 : imm[0] = false := by simpa [evenImmJ] using h
  apply BitVec.eq_of_getLsbD_eq
  intro i hi
  simp only [encodeJ, immJOf, BitVec.getLsbD_extractLsb', BitVec.getLsbD_cast, BitVec.getLsbD_append]
  interval_cases i <;> simp [h0]

/-- The word of the sentinel has the opcode and funct3 of beq and every other field zero (40_execution_cycle.md
R105). -/
theorem fields_haltWord : opcodeOf haltWord = opBranch ∧ funct3Of haltWord = 0#3 ∧ rs1Of haltWord = 0#5 ∧
    rs2Of haltWord = 0#5 ∧ immBOf haltWord = 0#13 := by decide

end Sys2Proof
end

