-- ==== Sys2Proof/Laws/State.lean ====
section
/-! SUPPORT. One lemma for each field under each named update of the state, so that no proof unfolds a record update. -/

namespace Sys2Proof.Machine

@[simp] theorem writeReg_regs (s : State) (r : RegIdx) (v : Word) : (s.writeReg r v).regs = s.regs.write r v := rfl
@[simp] theorem writeReg_pc (s : State) (r : RegIdx) (v : Word) : (s.writeReg r v).pc = s.pc := rfl
@[simp] theorem writeReg_status (s : State) (r : RegIdx) (v : Word) : (s.writeReg r v).status = s.status := rfl
@[simp] theorem writeReg_steps (s : State) (r : RegIdx) (v : Word) : (s.writeReg r v).steps = s.steps := rfl
@[simp] theorem writeReg_trace (s : State) (r : RegIdx) (v : Word) : (s.writeReg r v).trace = s.trace := rfl
@[simp] theorem writeReg_imem (s : State) (r : RegIdx) (v : Word) : (s.writeReg r v).imem = s.imem := rfl
@[simp] theorem writeReg_mem (s : State) (r : RegIdx) (v : Word) : (s.writeReg r v).mem = s.mem := rfl
@[simp] theorem writeReg_stepBudget (s : State) (r : RegIdx) (v : Word) : (s.writeReg r v).stepBudget = s.stepBudget := rfl

@[simp] theorem setPc_regs (s : State) (t : Word) : (s.setPc t).regs = s.regs := rfl
@[simp] theorem setPc_pc (s : State) (t : Word) : (s.setPc t).pc = t := rfl
@[simp] theorem setPc_status (s : State) (t : Word) : (s.setPc t).status = s.status := rfl
@[simp] theorem setPc_steps (s : State) (t : Word) : (s.setPc t).steps = s.steps := rfl
@[simp] theorem setPc_trace (s : State) (t : Word) : (s.setPc t).trace = s.trace := rfl
@[simp] theorem setPc_imem (s : State) (t : Word) : (s.setPc t).imem = s.imem := rfl
@[simp] theorem setPc_mem (s : State) (t : Word) : (s.setPc t).mem = s.mem := rfl
@[simp] theorem setPc_stepBudget (s : State) (t : Word) : (s.setPc t).stepBudget = s.stepBudget := rfl

@[simp] theorem advance_regs (s : State) : (s.advance).regs = s.regs := rfl
@[simp] theorem advance_pc (s : State) : (s.advance).pc = s.nextPc := rfl
@[simp] theorem advance_status (s : State) : (s.advance).status = s.status := rfl
@[simp] theorem advance_steps (s : State) : (s.advance).steps = s.steps := rfl
@[simp] theorem advance_trace (s : State) : (s.advance).trace = s.trace := rfl
@[simp] theorem advance_imem (s : State) : (s.advance).imem = s.imem := rfl
@[simp] theorem advance_mem (s : State) : (s.advance).mem = s.mem := rfl
@[simp] theorem advance_stepBudget (s : State) : (s.advance).stepBudget = s.stepBudget := rfl

@[simp] theorem storeWord_regs (s : State) (a v : Word) : (s.storeWord a v).regs = s.regs := rfl
@[simp] theorem storeWord_pc (s : State) (a v : Word) : (s.storeWord a v).pc = s.pc := rfl
@[simp] theorem storeWord_status (s : State) (a v : Word) : (s.storeWord a v).status = s.status := rfl
@[simp] theorem storeWord_steps (s : State) (a v : Word) : (s.storeWord a v).steps = s.steps := rfl
@[simp] theorem storeWord_trace (s : State) (a v : Word) : (s.storeWord a v).trace = s.trace := rfl
@[simp] theorem storeWord_imem (s : State) (a v : Word) : (s.storeWord a v).imem = s.imem := rfl
@[simp] theorem storeWord_mem (s : State) (a v : Word) : (s.storeWord a v).mem = s.mem.write a v := rfl
@[simp] theorem storeWord_stepBudget (s : State) (a v : Word) : (s.storeWord a v).stepBudget = s.stepBudget := rfl

@[simp] theorem emit_regs (s : State) : (s.emit).regs = s.regs := rfl
@[simp] theorem emit_pc (s : State) : (s.emit).pc = s.pc := rfl
@[simp] theorem emit_status (s : State) : (s.emit).status = s.status := rfl
@[simp] theorem emit_steps (s : State) : (s.emit).steps = s.steps := rfl
@[simp] theorem emit_trace (s : State) : (s.emit).trace = s.trace ++ [s.snapshot] := rfl
@[simp] theorem emit_imem (s : State) : (s.emit).imem = s.imem := rfl
@[simp] theorem emit_mem (s : State) : (s.emit).mem = s.mem := rfl
@[simp] theorem emit_stepBudget (s : State) : (s.emit).stepBudget = s.stepBudget := rfl

@[simp] theorem enter_regs (s : State) (st : Status) : (s.enter st).regs = s.regs := rfl
@[simp] theorem enter_pc (s : State) (st : Status) : (s.enter st).pc = s.pc := rfl
@[simp] theorem enter_status (s : State) (st : Status) : (s.enter st).status = st := rfl
@[simp] theorem enter_steps (s : State) (st : Status) : (s.enter st).steps = s.steps := rfl
@[simp] theorem enter_trace (s : State) (st : Status) : (s.enter st).trace = s.trace := rfl
@[simp] theorem enter_imem (s : State) (st : Status) : (s.enter st).imem = s.imem := rfl
@[simp] theorem enter_mem (s : State) (st : Status) : (s.enter st).mem = s.mem := rfl
@[simp] theorem enter_stepBudget (s : State) (st : Status) : (s.enter st).stepBudget = s.stepBudget := rfl

@[simp] theorem countFetch_regs (s : State) : (s.countFetch).regs = s.regs := rfl
@[simp] theorem countFetch_pc (s : State) : (s.countFetch).pc = s.pc := rfl
@[simp] theorem countFetch_status (s : State) : (s.countFetch).status = s.status := rfl
@[simp] theorem countFetch_steps (s : State) : (s.countFetch).steps = s.steps + 1 := rfl
@[simp] theorem countFetch_trace (s : State) : (s.countFetch).trace = s.trace := rfl
@[simp] theorem countFetch_imem (s : State) : (s.countFetch).imem = s.imem := rfl
@[simp] theorem countFetch_mem (s : State) : (s.countFetch).mem = s.mem := rfl
@[simp] theorem countFetch_stepBudget (s : State) : (s.countFetch).stepBudget = s.stepBudget := rfl

@[simp] theorem forceZero_regs (s : State) : (s.forceZero).regs = s.regs.zeroForced := rfl
@[simp] theorem forceZero_pc (s : State) : (s.forceZero).pc = s.pc := rfl
@[simp] theorem forceZero_status (s : State) : (s.forceZero).status = s.status := rfl
@[simp] theorem forceZero_steps (s : State) : (s.forceZero).steps = s.steps := rfl
@[simp] theorem forceZero_trace (s : State) : (s.forceZero).trace = s.trace := rfl
@[simp] theorem forceZero_imem (s : State) : (s.forceZero).imem = s.imem := rfl
@[simp] theorem forceZero_mem (s : State) : (s.forceZero).mem = s.mem := rfl
@[simp] theorem forceZero_stepBudget (s : State) : (s.forceZero).stepBudget = s.stepBudget := rfl

@[simp] theorem retire_regs (s : State) : (s.retire).regs = s.regs.zeroForced := rfl
@[simp] theorem retire_pc (s : State) : (s.retire).pc = s.pc := rfl
@[simp] theorem retire_status (s : State) : (s.retire).status = s.status := rfl
@[simp] theorem retire_steps (s : State) : (s.retire).steps = s.steps := rfl
@[simp] theorem retire_trace (s : State) : (s.retire).trace = s.trace ++ [s.forceZero.snapshot] := rfl
@[simp] theorem retire_imem (s : State) : (s.retire).imem = s.imem := rfl
@[simp] theorem retire_mem (s : State) : (s.retire).mem = s.mem := rfl
@[simp] theorem retire_stepBudget (s : State) : (s.retire).stepBudget = s.stepBudget := rfl

@[simp] theorem finishWith_regs (s : State) (rd : RegIdx) (v : Word) : (s.finishWith rd v).regs = s.regs.write rd v := rfl
@[simp] theorem finishWith_pc (s : State) (rd : RegIdx) (v : Word) : (s.finishWith rd v).pc = s.nextPc := rfl
@[simp] theorem finishWith_status (s : State) (rd : RegIdx) (v : Word) : (s.finishWith rd v).status = s.status := rfl
@[simp] theorem finishWith_steps (s : State) (rd : RegIdx) (v : Word) : (s.finishWith rd v).steps = s.steps := rfl
@[simp] theorem finishWith_trace (s : State) (rd : RegIdx) (v : Word) : (s.finishWith rd v).trace = s.trace := rfl
@[simp] theorem finishWith_imem (s : State) (rd : RegIdx) (v : Word) : (s.finishWith rd v).imem = s.imem := rfl
@[simp] theorem finishWith_mem (s : State) (rd : RegIdx) (v : Word) : (s.finishWith rd v).mem = s.mem := rfl
@[simp] theorem finishWith_stepBudget (s : State) (rd : RegIdx) (v : Word) : (s.finishWith rd v).stepBudget = s.stepBudget := rfl

@[simp] theorem placeFetch_regs (s : State) (w : Word) : (s.placeFetch w).regs = s.regs := rfl
@[simp] theorem placeFetch_pc (s : State) (w : Word) : (s.placeFetch w).pc = s.pc &&& 0xFFFFFFFC#32 := rfl
@[simp] theorem placeFetch_status (s : State) (w : Word) : (s.placeFetch w).status = .running := rfl
@[simp] theorem placeFetch_steps (s : State) (w : Word) : (s.placeFetch w).steps = s.steps := rfl
@[simp] theorem placeFetch_trace (s : State) (w : Word) : (s.placeFetch w).trace = s.trace := rfl
@[simp] theorem placeFetch_imem (s : State) (w : Word) : (s.placeFetch w).imem = placeWord s.imem (s.pc.toNat / 4) w := rfl
@[simp] theorem placeFetch_mem (s : State) (w : Word) : (s.placeFetch w).mem = s.mem := rfl
@[simp] theorem placeFetch_stepBudget (s : State) (w : Word) : (s.placeFetch w).stepBudget = if s.budgetSpent then none else s.stepBudget := rfl

@[simp] theorem snapshot_pc (s : State) : s.snapshot.pc = s.pc := rfl
@[simp] theorem snapshot_regs (s : State) : s.snapshot.regs = s.regs.zeroForced := rfl

end Sys2Proof.Machine
end

