-- ==== Sys2Proof/Laws/Memory.lean ====
section
/-! SUPPORT. The data memory: a read after a write, and that every write keeps the canonical form (20_memory.md R40). -/

namespace Sys2Proof.Machine

theorem cellAt_of_lt {m : Memory} {k : Nat} (h : ∀ c ∈ m, k < c.1) : cellAt m k = unlistedCell := by
  induction m with
  | nil => rfl
  | cons c m ih =>
    have hc := h c (by simp)
    have : c.1 ≠ k := by omega
    simp [cellAt, this, ih (fun d hd => h d (by simp [hd]))]

theorem cellAt_of_mem {m : Memory} (hs : m.Pairwise (fun c d => c.1 < d.1)) {c : MemCell} (hc : c ∈ m) :
    cellAt m c.1 = c.2 := by
  induction m with
  | nil => cases hc
  | cons d m ih =>
    rw [List.pairwise_cons] at hs
    rcases List.mem_cons.1 hc with rfl | h
    · simp [cellAt]
    · have : d.1 ≠ c.1 := by have := hs.1 c h; omega
      simp [cellAt, this, ih hs.2 h]

/-- The cell at a key after a cell was set, in a list whose keys rise. -/
theorem cellAt_setCell {m : Memory} (hs : m.Pairwise (fun c d => c.1 < d.1)) (k k' : Nat) (v : Word) :
    cellAt (setCell m k v) k' = if k' = k then v else cellAt m k' := by
  induction m with
  | nil =>
    by_cases hv : v = unlistedCell <;> by_cases hk : k' = k <;> simp [setCell, cellAt, hv, hk]
    intro h; exact absurd h.symm hk
  | cons c m ih =>
    rw [List.pairwise_cons] at hs
    obtain ⟨ck, cv⟩ := c
    have hlt : ∀ d ∈ m, ck < d.1 := hs.1
    by_cases h1 : k < ck
    · by_cases hv : v = unlistedCell
      · by_cases hk : k' = k
        · subst hk
          have h2 : ck ≠ k' := by omega
          have := cellAt_of_lt (m := m) (k := k') (fun d hd => by have := hlt d hd; omega)
          simp [setCell, h1, hv, cellAt, h2, this]
        · simp [setCell, h1, hv, hk]
      · by_cases hk : k' = k
        · subst hk; simp [setCell, h1, hv, cellAt]
        · have : k ≠ k' := fun e => hk e.symm
          simp [setCell, h1, hv, cellAt, hk, this]
    · by_cases h2 : k = ck
      · subst h2
        by_cases hv : v = unlistedCell
        · by_cases hk : k' = k
          · subst hk
            simp [setCell, hv, cellAt_of_lt hlt]
          · have : k ≠ k' := fun e => hk e.symm
            simp [setCell, hv, hk, cellAt, this]
        · by_cases hk : k' = k
          · subst hk; simp [setCell, hv, cellAt]
          · have : k ≠ k' := fun e => hk e.symm
            simp [setCell, hv, hk, cellAt, this]
      · by_cases h3 : ck = k'
        · subst h3
          have : ck ≠ k := fun e => h2 e.symm
          simp [setCell, h1, h2, cellAt, this]
        · simp [setCell, h1, h2, cellAt, h3, ih hs.2]

theorem mem_setCell {m : Memory} {k : Nat} {v : Word} {c : MemCell} (h : c ∈ setCell m k v) :
    c ∈ m ∨ (c = (k, v) ∧ v ≠ unlistedCell) := by
  induction m with
  | nil =>
    by_cases hv : v = unlistedCell <;> simp [setCell, hv] at h
    exact .inr ⟨h, hv⟩
  | cons d m ih =>
    obtain ⟨dk, dv⟩ := d
    by_cases h1 : k < dk
    · by_cases hv : v = unlistedCell
      · simp [setCell, h1, hv] at h
        exact .inl (by simpa using h)
      · simp [setCell, h1, hv] at h
        rcases h with h | h
        · exact .inr ⟨h, hv⟩
        · exact .inl (by simpa using h)
    · by_cases h2 : k = dk
      · by_cases hv : v = unlistedCell
        · simp [setCell, h2, hv] at h
          exact .inl (by simp [h])
        · simp [setCell, h2, hv] at h
          rcases h with h | h
          · exact .inr ⟨by simp [h, h2], hv⟩
          · exact .inl (by simp [h])
      · simp [setCell, h1, h2] at h
        rcases h with h | h
        · exact .inl (by simp [h])
        · rcases ih h with h | h
          · exact .inl (by simp [h])
          · exact .inr h

theorem setCell_sorted {m : Memory} (hs : m.Pairwise (fun c d => c.1 < d.1)) (k : Nat) (v : Word) :
    (setCell m k v).Pairwise (fun c d => c.1 < d.1) := by
  induction m with
  | nil => by_cases hv : v = unlistedCell <;> simp [setCell, hv]
  | cons c m ih =>
    obtain ⟨ck, cv⟩ := c
    have hs' := List.pairwise_cons.1 hs
    by_cases h1 : k < ck
    · by_cases hv : v = unlistedCell
      · simpa [setCell, h1, hv] using hs
      · rw [setCell, if_pos h1, if_neg hv, List.pairwise_cons]
        refine ⟨fun d hd => ?_, hs⟩
        rcases List.mem_cons.1 hd with rfl | hd
        · exact h1
        · exact Nat.lt_trans h1 (hs'.1 d hd)
    · by_cases h2 : k = ck
      · by_cases hv : v = unlistedCell
        · simpa [setCell, h2, hv] using hs'.2
        · rw [setCell, if_neg h1, if_pos h2, if_neg hv, List.pairwise_cons]
          exact ⟨fun d hd => by simpa [h2] using hs'.1 d hd, hs'.2⟩
      · rw [setCell, if_neg h1, if_neg h2, List.pairwise_cons]
        refine ⟨fun d hd => ?_, ih hs'.2⟩
        rcases mem_setCell hd with hd | ⟨rfl, -⟩
        · exact hs'.1 d hd
        · show ck < k
          omega

/-- A write keeps the canonical form. -/
theorem write_wf {m : Memory} (h : m.wf) (a v : Word) : (m.write a v).wf := by
  refine ⟨setCell_sorted h.1 _ _, fun c hc => ?_⟩
  rcases mem_setCell hc with hc | ⟨rfl, hv⟩
  · exact h.2 c hc
  · exact ⟨a.isLt, hv⟩

/-- A write at a multiple of 4 keeps every listed key a multiple of 4. -/
theorem write_aligned {m : Memory} (h : m.aligned) {a : Word} (ha : a.toNat % 4 = 0) (v : Word) :
    (m.write a v).aligned := by
  intro c hc
  rcases mem_setCell hc with hc | ⟨rfl, -⟩
  · exact h c hc
  · exact ha

/-- The memory after reset has the canonical form. -/
theorem reset_mem_wf : State.reset.mem.wf := ⟨List.Pairwise.nil, by intro c hc; cases hc⟩

/-- A read after a write: the value at the key written, every other key as before. -/
theorem read_write_cell {m : Memory} (h : m.wf) (a b v : Word) :
    (m.write a v).read b = if b = a then v else m.read b := by
  unfold Memory.read Memory.write
  rw [cellAt_setCell h.1]
  by_cases e : b = a
  · simp [e]
  · have : b.toNat ≠ a.toNat := fun h => e (BitVec.eq_of_toNat_eq h)
    simp [e, this]

/-- A key that is no multiple of 4 reads 0 where every listed key is one. -/
theorem read_unaligned {m : Memory} (h : m.aligned) {a : Word} (ha : a.toNat % 4 ≠ 0) : m.read a = 0#32 := by
  unfold Memory.read
  induction m with
  | nil => rfl
  | cons c m ih =>
    have hc := h c (by simp)
    have : c.1 ≠ a.toNat := by intro e; rw [e] at hc; exact ha hc
    simp [cellAt, this, ih (fun d hd => h d (by simp [hd]))]

@[simp] theorem loadWord_writeReg (s : State) (r : RegIdx) (v a : Word) :
    (s.writeReg r v).loadWord a = s.loadWord a := rfl
@[simp] theorem loadWord_setPc (s : State) (t a : Word) : (s.setPc t).loadWord a = s.loadWord a := rfl
@[simp] theorem loadWord_advance (s : State) (a : Word) : s.advance.loadWord a = s.loadWord a := rfl
@[simp] theorem loadWord_emit (s : State) (a : Word) : s.emit.loadWord a = s.loadWord a := rfl
@[simp] theorem loadWord_enter (s : State) (st : Status) (a : Word) : (s.enter st).loadWord a = s.loadWord a := rfl
@[simp] theorem loadWord_countFetch (s : State) (a : Word) : s.countFetch.loadWord a = s.loadWord a := rfl
@[simp] theorem loadWord_forceZero (s : State) (a : Word) : s.forceZero.loadWord a = s.loadWord a := rfl
@[simp] theorem loadWord_retire (s : State) (a : Word) : s.retire.loadWord a = s.loadWord a := rfl
@[simp] theorem loadWord_finishWith (s : State) (rd : RegIdx) (v a : Word) :
    (s.finishWith rd v).loadWord a = s.loadWord a := rfl

theorem loadWord_storeWord {s : State} (h : s.mem.wf) (a b v : Word) :
    (s.storeWord a v).loadWord b = if b = a then v else s.loadWord b := read_write_cell h a b v

end Sys2Proof.Machine
end

