-- ==== Sys2Proof/Laws/PerInstr.lean ====
section
/-! SUPPORT. Statements made for each instruction as syntax. EncodedRow: the word of an instruction matches its row of
spec/opcode_table.json (30_encoding.md R69). -/

namespace Sys2Proof.Laws.EncodedRow

/-- The word an instruction is encoded as matches the instruction's row of the opcode table. -/
def Statement (i : Instr) : Prop := matchesRow (encode i) (kindOf i) = true

/-- A bit vector agrees with a row when its bits do wherever the mask has a one, and the match has none elsewhere. -/
theorem matchesRow_of_bits {w : Word} {k : Kind}
    (h : ∀ i, i < 32 → (w.getLsbD i && (rowMask k).getLsbD i) = (rowMatch k).getLsbD i) : matchesRow w k = true := by
  unfold matchesRow
  rw [beq_iff_eq]
  apply BitVec.eq_of_getLsbD_eq
  intro i hi
  rw [BitVec.getLsbD_and]
  exact h i hi

theorem encodeR_row {f7 : BitVec 7} {f3 : BitVec 3} {k : Kind} (rd rs1 rs2 : RegIdx)
    (hm : rowMask k = 0xFE00707F#32) (hv : rowMatch k = encodeR f7 f3 0#5 0#5 0#5) :
    matchesRow (encodeR f7 f3 rd rs1 rs2) k = true := by
  apply matchesRow_of_bits
  intro i hi
  rw [hm, hv]
  simp only [encodeR, BitVec.getLsbD_cast, BitVec.getLsbD_append]
  interval_cases i <;> simp

theorem encodeI_row {op : BitVec 7} {f3 : BitVec 3} {k : Kind} (rd rs1 : RegIdx) (imm : BitVec 12)
    (hm : rowMask k = 0x0000707F#32) (hv : rowMatch k = encodeI op f3 0#5 0#5 0#12) :
    matchesRow (encodeI op f3 rd rs1 imm) k = true := by
  apply matchesRow_of_bits
  intro i hi
  rw [hm, hv]
  simp only [encodeI, BitVec.getLsbD_cast, BitVec.getLsbD_append]
  interval_cases i <;> simp

theorem encodeB_row {f3 : BitVec 3} {k : Kind} (rs1 rs2 : RegIdx) (imm : BitVec 13)
    (hm : rowMask k = 0x0000707F#32) (hv : rowMatch k = encodeB f3 0#5 0#5 0#13) :
    matchesRow (encodeB f3 rs1 rs2 imm) k = true := by
  apply matchesRow_of_bits
  intro i hi
  rw [hm, hv]
  simp only [encodeB, BitVec.getLsbD_cast, BitVec.getLsbD_append]
  interval_cases i <;> simp

theorem halt : Statement .halt := rfl
theorem add (rd rs1 rs2 : RegIdx) : Statement (.add rd rs1 rs2) := encodeR_row rd rs1 rs2 rfl rfl
theorem sub (rd rs1 rs2 : RegIdx) : Statement (.sub rd rs1 rs2) := encodeR_row rd rs1 rs2 rfl rfl
theorem sll (rd rs1 rs2 : RegIdx) : Statement (.sll rd rs1 rs2) := encodeR_row rd rs1 rs2 rfl rfl
theorem slt (rd rs1 rs2 : RegIdx) : Statement (.slt rd rs1 rs2) := encodeR_row rd rs1 rs2 rfl rfl
theorem srl (rd rs1 rs2 : RegIdx) : Statement (.srl rd rs1 rs2) := encodeR_row rd rs1 rs2 rfl rfl
theorem or (rd rs1 rs2 : RegIdx) : Statement (.or rd rs1 rs2) := encodeR_row rd rs1 rs2 rfl rfl
theorem and (rd rs1 rs2 : RegIdx) : Statement (.and rd rs1 rs2) := encodeR_row rd rs1 rs2 rfl rfl
theorem addi (rd rs1 : RegIdx) (imm : BitVec 12) : Statement (.addi rd rs1 imm) := encodeI_row rd rs1 imm rfl rfl
theorem sltiu (rd rs1 : RegIdx) (imm : BitVec 12) : Statement (.sltiu rd rs1 imm) := encodeI_row rd rs1 imm rfl rfl
theorem lw (rd rs1 : RegIdx) (imm : BitVec 12) : Statement (.lw rd rs1 imm) := encodeI_row rd rs1 imm rfl rfl
theorem beq (rs1 rs2 : RegIdx) (imm : BitVec 13) : Statement (.beq rs1 rs2 imm) := encodeB_row rs1 rs2 imm rfl rfl
theorem bne (rs1 rs2 : RegIdx) (imm : BitVec 13) : Statement (.bne rs1 rs2 imm) := encodeB_row rs1 rs2 imm rfl rfl
theorem nop : Statement .nop := rfl

theorem jalr (rd rs1 : RegIdx) (imm : BitVec 12) : Statement (.jalr rd rs1 imm) := by
  apply matchesRow_of_bits
  intro i hi
  simp only [encode, encodeI, rowMask, rowMatch, kindOf, BitVec.getLsbD_cast, BitVec.getLsbD_append]
  interval_cases i <;> simp [opJalr]

theorem sw (rs1 rs2 : RegIdx) (imm : BitVec 12) : Statement (.sw rs1 rs2 imm) := by
  apply matchesRow_of_bits
  intro i hi
  simp only [encode, encodeS, rowMask, rowMatch, kindOf, BitVec.getLsbD_cast, BitVec.getLsbD_append]
  interval_cases i <;> simp [opStore]

theorem jal (rd : RegIdx) (imm : BitVec 21) : Statement (.jal rd imm) := by
  apply matchesRow_of_bits
  intro i hi
  simp only [encode, encodeJ, rowMask, rowMatch, kindOf, BitVec.getLsbD_cast, BitVec.getLsbD_append]
  interval_cases i <;> simp [opJal]

end Sys2Proof.Laws.EncodedRow
end

