-- ==== Sys2Proof/Laws/Registers.lean ====
section
/-! SUPPORT. Reading and writing registers: what a read gives after each update (10_state.md R21). -/

namespace Sys2Proof.Machine

@[simp] theorem read_zero (f : RegFile) : f.read 0#5 = 0#32 := by simp [RegFile.read]

theorem read_of_ne (f : RegFile) {r : RegIdx} (h : r ≠ 0#5) : f.read r = f[r.toNat]'r.isLt := by
  simp [RegFile.read, h]

/-- A read after a write gives the value written, except at x0. -/
theorem read_write (f : RegFile) (r r' : RegIdx) (v : Word) :
    (f.write r v).read r' = if r' = r ∧ r ≠ 0#5 then v else f.read r' := by
  by_cases hr : r = 0#5
  · simp [RegFile.write, hr]
  · by_cases hr' : r' = 0#5
    · have : ¬ (0#5 = r) := fun h => hr h.symm
      simp [RegFile.read, hr', this]
    · by_cases h : r' = r
      · subst h
        simp [RegFile.read, RegFile.write, hr]
      · have hn : r.toNat ≠ r'.toNat := fun e => h (BitVec.eq_of_toNat_eq e.symm)
        simp [RegFile.read, RegFile.write, hr, hr', h, Vector.getElem_set_ne _ _ hn]

@[simp] theorem write_zero (f : RegFile) (v : Word) : f.write 0#5 v = f := by simp [RegFile.write]

/-- Re-forcing x0 changes no register as it reads. -/
@[simp] theorem read_zeroForced (f : RegFile) (r : RegIdx) : f.zeroForced.read r = f.read r := by
  by_cases hr : r = 0#5
  · simp [hr]
  · have hn : (0 : Nat) ≠ r.toNat := fun e => hr (BitVec.eq_of_toNat_eq e.symm)
    simp [RegFile.read, RegFile.zeroForced, hr, Vector.getElem_set_ne _ _ hn]

@[simp] theorem zeroForced_slot (f : RegFile) : f.zeroForced[0] = 0#32 := by simp [RegFile.zeroForced]

@[simp] theorem zeroForced_zeroForced (f : RegFile) : f.zeroForced.zeroForced = f.zeroForced := by
  simp [RegFile.zeroForced]

/-- A register file whose slot of x0 holds 0 is not changed by re-forcing it. -/
theorem zeroForced_of_slot {f : RegFile} (h : f[0] = 0#32) : f.zeroForced = f := by
  unfold RegFile.zeroForced
  rw [← h]
  exact Vector.set_getElem_self _

/-- The end of an executed step in one record update (40_execution_cycle.md R108). -/
theorem retire_eq (s : State) : s.retire =
    { s with regs := s.regs.zeroForced, trace := s.trace ++ [{ pc := s.pc, regs := s.regs.zeroForced }] } := by
  simp [State.retire, State.emit, State.forceZero, State.snapshot]

/-- A write never reaches the slot of x0. -/
@[simp] theorem write_slot (f : RegFile) (r : RegIdx) (v : Word) : (f.write r v)[0] = f[0] := by
  by_cases hr : r = 0#5
  · simp [hr]
  · have hn : r.toNat ≠ 0 := fun e => hr (BitVec.eq_of_toNat_eq e)
    simp [RegFile.write, hr, Vector.getElem_set_ne _ _ hn]

theorem readReg_eq (s : State) (r : RegIdx) : s.readReg r = s.regs.read r := rfl

@[simp] theorem readReg_zero (s : State) : s.readReg 0#5 = 0#32 := read_zero _

theorem readReg_writeReg (s : State) (r r' : RegIdx) (v : Word) :
    (s.writeReg r v).readReg r' = if r' = r ∧ r ≠ 0#5 then v else s.readReg r' := read_write _ _ _ _

theorem readReg_finishWith (s : State) (rd r' : RegIdx) (v : Word) :
    (s.finishWith rd v).readReg r' = if r' = rd ∧ rd ≠ 0#5 then v else s.readReg r' := read_write _ _ _ _

@[simp] theorem readReg_setPc (s : State) (t : Word) (r : RegIdx) : (s.setPc t).readReg r = s.readReg r := rfl
@[simp] theorem readReg_advance (s : State) (r : RegIdx) : s.advance.readReg r = s.readReg r := rfl
@[simp] theorem readReg_storeWord (s : State) (a v : Word) (r : RegIdx) :
    (s.storeWord a v).readReg r = s.readReg r := rfl
@[simp] theorem readReg_emit (s : State) (r : RegIdx) : s.emit.readReg r = s.readReg r := rfl
@[simp] theorem readReg_enter (s : State) (st : Status) (r : RegIdx) : (s.enter st).readReg r = s.readReg r := rfl
@[simp] theorem readReg_countFetch (s : State) (r : RegIdx) : s.countFetch.readReg r = s.readReg r := rfl
@[simp] theorem readReg_forceZero (s : State) (r : RegIdx) : s.forceZero.readReg r = s.readReg r :=
  read_zeroForced _ _
@[simp] theorem readReg_retire (s : State) (r : RegIdx) : s.retire.readReg r = s.readReg r := read_zeroForced _ _

/-- Two register files that read the same everywhere and have the same x0 slot are equal. -/
theorem regFile_ext {f g : RegFile} (h0 : f[0] = g[0]) (h : ∀ r, f.read r = g.read r) : f = g := by
  apply Vector.ext
  intro i hi
  by_cases hz : i = 0
  · subst hz; exact h0
  · have hr : BitVec.ofNat 5 i ≠ 0#5 := by
      intro e
      have := congrArg BitVec.toNat e
      simp at this
      omega
    have e : (BitVec.ofNat 5 i).toNat = i := by simp; omega
    have := h (BitVec.ofNat 5 i)
    rw [read_of_ne _ hr, read_of_ne _ hr] at this
    simpa [e] using this

end Sys2Proof.Machine
end

