-- ==== Sys2Proof/Laws/Step.lean ====
section
/-! SUPPORT. What an instruction and a step can do, said once: later proofs cite these and do not unfold exec or
step. -/

namespace Sys2Proof.Machine

/-- Every instruction answers a next state: no encoding faults or refuses (60_exceptions.md R200). -/
theorem exec_total (i : Instr) (s : State) : ∃ t, exec i s = .next t := by
  cases i <;> exact ⟨_, rfl⟩

/-- The four shapes of an instruction's effect: the sentinel, a store, a register with the pc, or the pc alone. -/
theorem exec_cases {i : Instr} {s t : State} (h : exec i s = .next t) :
    (i = .halt ∧ t = s.emit.enter .haltedSentinel) ∨
    (∃ rs1 rs2 imm, i = .sw rs1 rs2 imm ∧
      t = (s.storeWord (storeAddress s rs1 imm) (s.readReg rs2)).advance) ∨
    (i ≠ .halt ∧ ∃ rd v p, t = (s.writeReg rd v).setPc p) ∨
    (i ≠ .halt ∧ ∃ p, t = s.setPc p) := by
  cases i <;> injection h with h <;> subst h
  case halt => exact .inl ⟨rfl, rfl⟩
  case sw rs1 rs2 imm => exact .inr (.inl ⟨rs1, rs2, imm, rfl, rfl⟩)
  case beq => exact .inr (.inr (.inr ⟨nofun, _, rfl⟩))
  case bne => exact .inr (.inr (.inr ⟨nofun, _, rfl⟩))
  case nop => exact .inr (.inr (.inr ⟨nofun, _, rfl⟩))
  all_goals exact .inr (.inr (.inl ⟨nofun, _, _, _, rfl⟩))

/-- What every instruction but the sentinel leaves alone. -/
theorem exec_frame {i : Instr} {s t : State} (hi : i ≠ .halt) (h : exec i s = .next t) :
    t.status = s.status ∧ t.steps = s.steps ∧ t.trace = s.trace ∧ t.imem = s.imem ∧
    t.stepBudget = s.stepBudget := by
  obtain ⟨h, -⟩ | ⟨_, _, _, -, rfl⟩ | ⟨-, _, _, _, rfl⟩ | ⟨-, _, rfl⟩ := exec_cases h
  · exact absurd h hi
  all_goals exact ⟨rfl, rfl, rfl, rfl, rfl⟩

/-- A masked address is a multiple of 4. -/
theorem masked_toNat (a : Word) : (a &&& 0xFFFFFFFC#32).toNat = a.toNat - a.toNat % 4 := by
  have h : a &&& 0xFFFFFFFC#32 = (a >>> 2) <<< 2 := by
    ext i hi
    simp only [BitVec.getElem_and, BitVec.getElem_shiftLeft, BitVec.getElem_ushiftRight]
    have : (0xFFFFFFFC#32 : BitVec 32)[i] = decide (2 ≤ i) := by
      revert i; decide
    rw [this]
    by_cases h2 : i < 2
    · simp [h2]
    · simp [h2, show 2 ≤ i by omega, show 2 + (i - 2) = i by omega, BitVec.getLsbD_eq_getElem hi]
  rw [h, BitVec.toNat_shiftLeft, BitVec.toNat_ushiftRight, Nat.shiftRight_eq_div_pow, Nat.shiftLeft_eq]
  have := a.isLt
  omega

theorem storeAddress_aligned (s : State) (rs1 : RegIdx) (imm : BitVec 12) :
    (storeAddress s rs1 imm).toNat % 4 = 0 := by
  unfold storeAddress
  rw [masked_toNat]
  omega

theorem step_eq (s : State) : step s = cycle s := rfl

/-- The cases of a step that answers a next state, in the order of its checks (40_execution_cycle.md R111). -/
theorem step_cases {s t : State} (h : step s = .next t) :
    s.status = .running ∧
    ((s.pcMisaligned = true ∧ t = s.enter .faultPcMisaligned) ∨
     (s.pcMisaligned = false ∧ s.fetchWord = none ∧ t = s.enter .haltedEnd) ∨
     (s.pcMisaligned = false ∧ s.fetchWord ≠ none ∧ s.budgetSpent = true ∧ t = s.enter .stoppedBudget) ∨
     (∃ w, s.pcMisaligned = false ∧ s.fetchWord = some w ∧ s.budgetSpent = false ∧
       ((decode w = .halt ∧ t = s.countFetch.emit.enter .haltedSentinel) ∨
        (decode w ≠ .halt ∧ ∃ u, exec (decode w) s.countFetch = .next u ∧ t = u.retire)))) := by
  unfold step cycle at h
  split at h
  next hr =>
    refine ⟨hr, ?_⟩
    split at h
    next hm => injection h with h; exact .inl ⟨hm, h.symm⟩
    next hm =>
      have hm : s.pcMisaligned = false := by simpa using hm
      split at h
      next hf => injection h with h; exact .inr (.inl ⟨hm, hf, h.symm⟩)
      next w hf =>
        split at h
        next hb => injection h with h; exact .inr (.inr (.inl ⟨hm, by simp [hf], hb, h.symm⟩))
        next hb =>
          refine .inr (.inr (.inr ⟨w, hm, hf, by simpa using hb, ?_⟩))
          obtain ⟨u, hu⟩ := exec_total (decode w) s.countFetch
          rw [runFetched, hu] at h
          injection h with h
          by_cases hd : decode w = .halt
          · rw [if_pos hd] at h
            rw [hd] at hu
            injection hu with hu
            exact .inl ⟨hd, by rw [← h, ← hu]⟩
          · rw [if_neg hd] at h
            exact .inr ⟨hd, u, hu, h.symm⟩
  next hr => cases h

/-- A step in a terminal status takes no step (10_state.md R25). -/
theorem step_of_terminal {s : State} (h : s.status ≠ .running) : step s = .fault (.runEnded s.status) := by
  simp [step, cycle, h]

theorem step_of_misaligned {s : State} (h : s.status = .running) (hm : s.pcMisaligned = true) :
    step s = .next (s.enter .faultPcMisaligned) := by
  simp [step, cycle, h, hm]

theorem step_of_pastEnd {s : State} (h : s.status = .running) (hm : s.pcMisaligned = false)
    (hf : s.fetchWord = none) : step s = .next (s.enter .haltedEnd) := by
  simp [step, cycle, h, hm, hf]

theorem step_of_budgetSpent {s : State} {w : Word} (h : s.status = .running) (hm : s.pcMisaligned = false)
    (hf : s.fetchWord = some w) (hb : s.budgetSpent = true) : step s = .next (s.enter .stoppedBudget) := by
  simp [step, cycle, h, hm, hf, hb]

theorem step_of_fetched {s : State} {w : Word} (h : s.status = .running) (hm : s.pcMisaligned = false)
    (hf : s.fetchWord = some w) (hb : s.budgetSpent = false) : step s = runFetched s w := by
  simp [step, cycle, h, hm, hf, hb]

theorem runFetched_halt {s : State} {w : Word} (h : decode w = .halt) :
    runFetched s w = .next (s.countFetch.emit.enter .haltedSentinel) := by
  simp [runFetched, h, exec, execHalt, finishStep]

theorem runFetched_exec {s u : State} {w : Word} (h : decode w ≠ .halt)
    (hu : exec (decode w) s.countFetch = .next u) : runFetched s w = .next u.retire := by
  simp [runFetched, hu, finishStep, h]

/-- In a RUNNING state the block always takes a step. -/
theorem step_total {s : State} (h : s.status = .running) : ∃ t, step s = .next t := by
  by_cases hm : s.pcMisaligned = true
  · exact ⟨_, step_of_misaligned h hm⟩
  · have hm : s.pcMisaligned = false := by simpa using hm
    cases hf : s.fetchWord with
    | none => exact ⟨_, step_of_pastEnd h hm hf⟩
    | some w =>
      by_cases hb : s.budgetSpent = true
      · exact ⟨_, step_of_budgetSpent h hm hf hb⟩
      · have hb : s.budgetSpent = false := by simpa using hb
        rw [step_of_fetched h hm hf hb]
        obtain ⟨u, hu⟩ := exec_total (decode w) s.countFetch
        by_cases hd : decode w = .halt
        · exact ⟨_, runFetched_halt hd⟩
        · exact ⟨_, runFetched_exec hd hu⟩

theorem placeWord_getElem? (p : List Word) (k : Nat) (w : Word) : (placeWord p k w)[k]? = some w := by
  induction k generalizing p with
  | zero => cases p <;> rfl
  | succ k ih => cases p <;> simpa [placeWord] using ih _

theorem pcMisaligned_eq (s : State) : s.pcMisaligned = decide (s.pc.toNat % 4 ≠ 0) := by
  unfold State.pcMisaligned
  have h : (s.pc.extractLsb' 0 2).toNat = s.pc.toNat % 4 := by simp
  by_cases e : s.pc.toNat % 4 = 0
  · have : s.pc.extractLsb' 0 2 = 0#2 := BitVec.eq_of_toNat_eq (by simpa [h] using e)
    simp [this, e]
  · have : s.pc.extractLsb' 0 2 ≠ 0#2 := by
      intro e'
      rw [e'] at h
      exact e h.symm
    simp [this, e]

/-- The step after a word was placed where it fetches runs that word (log 3). -/
theorem step_placeFetch (s : State) (w : Word) : step (s.placeFetch w) = runFetched (s.placeFetch w) w := by
  apply step_of_fetched rfl
  · rw [pcMisaligned_eq]
    show decide ((s.pc &&& 0xFFFFFFFC#32).toNat % 4 ≠ 0) = false
    rw [masked_toNat]
    simp
    omega
  · show (placeWord s.imem (s.pc.toNat / 4) w)[(s.pc &&& 0xFFFFFFFC#32).toNat / 4]? = some w
    rw [masked_toNat, show (s.pc.toNat - s.pc.toNat % 4) / 4 = s.pc.toNat / 4 by omega]
    exact placeWord_getElem? _ _ _
  · show (match (if s.budgetSpent = true then none else s.stepBudget) with
      | none => false
      | some b => decide (b ≤ s.steps)) = false
    by_cases h : s.budgetSpent = true
    · rw [if_pos h]
    · rw [if_neg h]
      exact Bool.eq_false_iff.2 h

end Sys2Proof.Machine
end

