-- ==== Sys2Proof/Tests/Slice0.lean ====
section
/-! SUPPORT. Tests. Expected results are those of spec/95_test_vectors.md (section numbers in the comments), not the
model's; each witness shows a state and operands that meet every hypothesis of the statement it is named after. -/

open Sys2Proof Sys2Proof.Machine Sys2Proof.Claims

namespace Sys2Proof.Tests

/-- The state a step or an instruction goes to; reset where it goes nowhere. -/
def after : Host.Outcome State Fault Refusal → State
  | .next t => t
  | .fault _ => State.reset
  | .refused _ => State.reset

/-- The outcome is a next state. -/
def goesOn : Host.Outcome State Fault Refusal → Bool
  | .next _ => true
  | .fault _ => false
  | .refused _ => false

theorem eq_after {o : Host.Outcome State Fault Refusal} (h : goesOn o = true) : o = .next (after o) := by
  cases o <;> first | rfl | cases h

/-- Reset with x1, x2, x5, the pc, a memory and one word at the pc. -/
def prep (pc x1 x2 x5 : Word) (m : Memory) (w : Word) : State :=
  { State.reset with
    regs := ((State.reset.regs.set 1 x1).set 2 x2).set 5 x5, pc := pc, mem := m
    imem := placeWord [] (pc.toNat / 4) w }

/-! WellFormed refuses one term for each check. -/

theorem test_odd_beq_offset_is_illFormed : (Instr.beq 1#5 2#5 5#13).wellFormed = false := by decide
theorem test_odd_bne_offset_is_illFormed : (Instr.bne 1#5 2#5 5#13).wellFormed = false := by decide
theorem test_odd_jal_offset_is_illFormed : (Instr.jal 1#5 3#21).wellFormed = false := by decide
theorem test_sentinel_is_no_beq : (Instr.beq 0#5 0#5 0#13).wellFormed = false := by decide

/-! Decoding: the fields written out, immediates and opcode from 30_encoding.md R61 to R69 (2.1, and E8). -/

theorem test_decode_halt : decode 0b00000000000000000000000001100011#32 = .halt := by decide
theorem test_decode_add : decode 0b0000000_00010_00001_000_00011_0110011#32 = .add 3#5 1#5 2#5 := by decide
theorem test_decode_sub : decode 0b0100000_00010_00001_000_00011_0110011#32 = .sub 3#5 1#5 2#5 := by decide
theorem test_decode_sll : decode 0b0000000_00010_00001_001_00011_0110011#32 = .sll 3#5 1#5 2#5 := by decide
theorem test_decode_slt : decode 0b0000000_00010_00001_010_00011_0110011#32 = .slt 3#5 1#5 2#5 := by decide
theorem test_decode_srl : decode 0b0000000_00010_00001_101_00011_0110011#32 = .srl 3#5 1#5 2#5 := by decide
theorem test_decode_or : decode 0b0000000_00010_00001_110_00011_0110011#32 = .or 3#5 1#5 2#5 := by decide
theorem test_decode_and : decode 0b0000000_00010_00001_111_00011_0110011#32 = .and 3#5 1#5 2#5 := by decide
theorem test_decode_addi : decode 0b100000000000_00001_000_00001_0010011#32 = .addi 1#5 1#5 (-2048) := by decide
theorem test_decode_sltiu : decode 0b111111111111_00001_011_00010_0010011#32 = .sltiu 2#5 1#5 (-1) := by decide
theorem test_decode_jalr_any_funct3 : decode 0b000000000000_00101_111_00001_1100111#32 = .jalr 1#5 5#5 0#12 := by decide
theorem test_decode_lw : decode 0b000000000100_00001_010_00011_0000011#32 = .lw 3#5 1#5 4#12 := by decide
theorem test_decode_sw : decode 0b1111111_00010_00001_010_11100_0100011#32 = .sw 1#5 2#5 (-4) := by decide
theorem test_decode_beq : decode 0b0_000000_00000_00000_000_0000_1_1100011#32 = .beq 0#5 0#5 2048#13 := by decide
theorem test_decode_bne : decode 0b1_111111_00010_00001_001_1100_1_1100011#32 = .bne 1#5 2#5 (-8) := by decide
theorem test_decode_bne_least : decode 0x80209063#32 = .bne 1#5 2#5 (-4096) := by decide
theorem test_decode_jal : decode 0b1_1111111110_1_11111111_00001_1101111#32 = .jal 1#5 (-4) := by decide
theorem test_decode_jal_most : decode 0x7FFFF0EF#32 = .jal 1#5 1048574#21 := by decide
theorem test_decode_sra_is_nop : decode 0x4020D1B3#32 = .nop := by decide
theorem test_decode_lui_is_nop : decode 0x000010B7#32 = .nop := by decide
theorem test_decoder_ports : decoderPorts 0xFE20AE23#32 =
    { opcode := 0b0100011#7, rd := 0b11100#5, funct3 := 0b010#3, rs1 := 1#5, rs2 := 2#5, funct7 := 0b1111111#7
      imm := 0xFFFFFFFC#32, kind := .sw } := by decide
theorem test_table_word : decodeTableWord 32 0x00500093 = some (.addi 1#5 0#5 5#12) := by decide
theorem test_table_word_too_long : decodeTableWord 40 0x00500093 = none := by decide
theorem test_encode_sw : encode (.sw 1#5 2#5 (-2048)) = 0x8020A023#32 := by decide
theorem test_encode_jal : encode (.jal 1#5 2048#21) = 0x001000EF#32 := by decide
theorem test_encode_ret : encode (expandPseudo .ret) = 0x00008067#32 := by decide
theorem test_encode_pseudo_nop : encode (expandPseudo .nop) = 0x00000013#32 := by decide
theorem test_assembly : assemblyText (.addi 1#5 0#5 5#12) = "addi x1, x0, 5" := by decide

/-! One step each (2.2 to 2.7). -/

theorem test_add_wraps : (after (step (prep 0 0xFFFFFFFF 1 0 [] 0x002081B3))).readReg 3#5 = 0x00000000#32 := by decide
theorem test_add_to_x0 : (after (step (prep 0 5 7 0 [] 0x00208033))).regs[0] = 0#32 := by decide
theorem test_sub_borrows : (after (step (prep 0 0 1 0 [] 0x402081B3))).readReg 3#5 = 0xFFFFFFFF#32 := by decide
theorem test_sll_by_33 : (after (step (prep 0 1 0x21 0 [] 0x002091B3))).readReg 3#5 = 2#32 := by decide
theorem test_slt_minus_one : (after (step (prep 0 0xFFFFFFFF 1 0 [] 0x0020A1B3))).readReg 3#5 = 1#32 := by decide
theorem test_slt_one : (after (step (prep 0 1 0xFFFFFFFF 0 [] 0x0020A1B3))).readReg 3#5 = 0#32 := by decide
theorem test_srl_is_logical : (after (step (prep 0 0xF0000000 4 0 [] 0x0020D1B3))).readReg 3#5 = 0x0F000000#32 := by
  decide
theorem test_srl_by_32 : (after (step (prep 0 0x80000000 0x20 0 [] 0x0020D1B3))).readReg 3#5 = 0x80000000#32 := by decide
theorem test_or : (after (step (prep 0 0xF0F0 0x0F0F 0 [] 0x0020E1B3))).readReg 3#5 = 0xFFFF#32 := by decide
theorem test_and : (after (step (prep 0 0xFF00 0x0FF0 0 [] 0x0020F1B3))).readReg 3#5 = 0x0F00#32 := by decide
theorem test_addi_minus_2048 : (after (step (prep 0 0xA 0 0 [] 0x80008113))).readReg 2#5 = 0xFFFFF80A#32 := by decide
theorem test_sltiu_minus_one : (after (step (prep 0 5 0 0 [] 0xFFF0B113))).readReg 2#5 = 1#32 := by decide
theorem test_sltiu_not_below : (after (step (prep 0 0xFFFFF800 0 0 [] 0x8000B113))).readReg 2#5 = 0#32 := by decide
theorem test_jalr_rd_is_rs1 : let t := after (step (prep 0 0 0 0x20 [] 0x004282E7))
    t.pc = 0x24#32 ∧ t.readReg 5#5 = 4#32 := by decide
theorem test_jalr_keeps_bit_1 : let t := after (step (prep 0 0 0 0x100 [] 0x003280E7))
    t.pc = 0x102#32 ∧ (after (step t)).status = .faultPcMisaligned := by decide
theorem test_beq_taken : (after (step (prep 0x20 7 7 0 [] 0x00208463))).pc = 0x28#32 := by decide
theorem test_beq_not_taken : (after (step (prep 0x20 0xFFFFFFFF 0x7FFFFFFF 0 [] 0x00208463))).pc = 0x24#32 := by decide
theorem test_bne_backward : (after (step (prep 0x10 1 2 0 [] 0xFE209CE3))).pc = 0x08#32 := by decide
theorem test_bne_below_zero : let t := after (step (prep 0x08 1 0 0 [] 0xFE0098E3))
    t.pc = 0xFFFFFFF8#32 ∧ (after (step t)).status = .haltedEnd := by decide
theorem test_jal_links : let t := after (step (prep 4 0 0 0 [] 0x00C000EF))
    t.pc = 0x10#32 ∧ t.readReg 1#5 = 8#32 := by decide
theorem test_jal_self_loop_is_no_sentinel : let t := after (step (prep 0 0 0 0 [] 0x0000006F))
    t.pc = 0#32 ∧ t.status = .running := by decide
theorem test_lw : (after (step (prep 0 0x104 0 0 [(0x100, 0x12345678)] 0xFFC0A183))).readReg 3#5 = 0x12345678#32 := by
  decide
theorem test_lw_unaligned_is_zero : (after (step (prep 0 0x100 0 0 [(0x100, 0x12345678)] 0x0010A183))).readReg 3#5 =
    0#32 := by decide
theorem test_sw_masks : (after (step (prep 0 0x100 0x12345678 0 [] 0xFE20AFA3))).mem = [(0xFC, 0x12345678#32)] := by decide
theorem test_sw_zero_unlists : (after (step (prep 0 0x100 0 0 [(0x100, 0x12345678)] 0x0000A023))).mem = [] := by decide
theorem test_nop_emits : let t := after (step (prep 8 0 0 0 [] 0x00000000))
    t.pc = 12#32 ∧ t.steps = 1 ∧ t.trace.map (fun r => r.pc) = [12#32] := by decide
theorem test_nop_lui_keeps_x1 : (after (step (prep 0 9 0 0 [] 0x000010B7))).readReg 1#5 = 9#32 := by decide
theorem test_halt_keeps_pc : let t := after (step (prep 4 0 0 0 [] 0x00000063))
    t.pc = 4#32 ∧ t.status = .haltedSentinel ∧ t.trace.map (fun r => r.pc) = [4#32] := by decide
theorem test_empty_program_ends : let t := after (step State.reset)
    t.status = .haltedEnd ∧ t.steps = 0 ∧ t.trace = [] := by decide
theorem test_misaligned_before_pastEnd :
    (after (step { State.reset with pc := 0xFFFFFFFE#32 })).status = .faultPcMisaligned := by decide
theorem test_pastEnd_before_budget :
    (after (step { State.reset with pc := 4#32, steps := 1, imem := [0], stepBudget := some 1 })).status = .haltedEnd := by
  decide
theorem test_budget_before_sentinel :
    (after (step { State.reset with steps := 1, imem := [0x63], stepBudget := some 1 })).status = .stoppedBudget := by decide
theorem test_withFetchWord_runs_first : let t := after (step (State.reset.withFetchWord 32 0x00500093))
    t.readReg 1#5 = 5#32 ∧ t.pc = 4#32 := by decide
theorem test_program_text : programOfLines ["00000000010100000000000010010011".toList, [],
    "00000000000000000000000001100011".toList] = some [0x00500093#32, 0x00000063#32] := by decide
theorem test_malformed_line : programOfLines ["0101".toList] = none := by decide
theorem test_window_at_0x100 : (windowAt 0x100#32 (prep 0 0 0 0 [(0x178, 0xF)] 0))[30]? = some (0x178#32, 0xF#32) := by
  decide

/-! Witnesses: every hypothesis of a statement met at once, at a boundary where the statement has one. -/

theorem witness_SignExtension_negative : 0 < 12 ∧ 12 ≤ 32 ∧ (0x800#12).getLsbD (12 - 1) = true := by decide
theorem witness_SignExtension_full_width : 0 < 32 ∧ 32 ≤ 32 ∧ (0x7FFFFFFF#32).getLsbD (32 - 1) = false := by decide
theorem witness_Immediates : kindOf (decode 0x80008093#32) = .addi ∧ kindOf (decode 0x8020A023#32) = .sw ∧
    kindOf (decode 0x80209063#32) = .bne ∧ kindOf (decode 0x800000EF#32) = .jal := by decide
theorem witness_DecoderSelects : matchesRow 0x00000063#32 .beq = true ∧ matchesRow 0x00108063#32 .beq = true := by decide
theorem witness_DecodingTheEncodedWord : (Instr.beq 0#5 0#5 (-4096)).wellFormed = true ∧
    (Instr.jal 31#5 1048574#21).wellFormed = true := by decide
theorem witness_EncodingTheDecodedWord : decode 0x000280E7#32 ≠ .nop ∧ funct3Of 0x000280E7#32 = 0b000#3 := by decide
theorem witness_OnlyTheReserved : opcodeOf 0x00108063#32 = 0b1100011#7 ∧ funct3Of 0x00108063#32 = 0b000#3 ∧
    immBOf 0x00108063#32 = 0#13 ∧ (0x00108063#32) ≠ 0x00000063#32 ∧
    State.reset.readReg (rs1Of 0x00108063#32) = State.reset.readReg (rs2Of 0x00108063#32) := by decide
theorem witness_Unlisted_reg : opcodeOf 0x022081B3#32 = 0b0110011#7 ∧ funct7Of 0x022081B3#32 = 1#7 := by decide
theorem witness_Unlisted_imm : opcodeOf 0x0010A113#32 = 0b0010011#7 ∧ funct3Of 0x0010A113#32 = 0b010#3 := by decide
theorem witness_Unlisted_load : opcodeOf 0x00008183#32 = 0b0000011#7 ∧ funct3Of 0x00008183#32 = 0b000#3 := by decide
theorem witness_Unlisted_store : opcodeOf 0x00209023#32 = 0b0100011#7 ∧ funct3Of 0x00209023#32 = 0b001#3 := by decide
theorem witness_Unlisted_branch : opcodeOf 0x0020C463#32 = 0b1100011#7 ∧ funct3Of 0x0020C463#32 = 0b100#3 := by decide

theorem witness_RegisterZero : ∃ t, step (prep 0 5 7 0 [] 0x00208033) = .next t ∧ t.status = .running :=
  ⟨_, eq_after (by decide), by decide⟩
theorem exists_program (n : Nat) : ∃ p : List Word, p.length = n := ⟨List.replicate n 0#32, List.length_replicate⟩
theorem witness_Boot_longest : ∃ p : List Word, p.length ≤ 2 ^ 30 := (exists_program _).imp fun _ h => Nat.le_of_eq h
theorem witness_Boot_too_long : ∃ p : List Word, 2 ^ 30 < p.length :=
  (exists_program (2 ^ 30 + 1)).imp fun _ h => Nat.le_of_eq h.symm
theorem witness_Boot_after_a_step : ∃ t, step State.reset = .next t := ⟨_, eq_after (by decide)⟩

theorem witness_Add : 0x002081B3#32 &&& 0xFE00707F#32 = 0x00000033#32 := by decide
theorem witness_Sub : 0x402081B3#32 &&& 0xFE00707F#32 = 0x40000033#32 := by decide
theorem witness_Sll : 0x002091B3#32 &&& 0xFE00707F#32 = 0x00001033#32 := by decide
theorem witness_Slt : 0x0020A1B3#32 &&& 0xFE00707F#32 = 0x00002033#32 := by decide
theorem witness_Srl : 0x0020D1B3#32 &&& 0xFE00707F#32 = 0x00005033#32 := by decide
theorem witness_Or : 0x0020E1B3#32 &&& 0xFE00707F#32 = 0x00006033#32 := by decide
theorem witness_And : 0x0020F1B3#32 &&& 0xFE00707F#32 = 0x00007033#32 := by decide
theorem witness_Addi : 0xFFF08113#32 &&& 0x0000707F#32 = 0x00000013#32 := by decide
theorem witness_Sltiu : 0xFFF0B113#32 &&& 0x0000707F#32 = 0x00003013#32 := by decide
theorem witness_Jalr : 0x0002F0E7#32 &&& 0x0000007F#32 = 0x00000067#32 := by decide
theorem witness_Beq : 0x00208463#32 &&& 0x0000707F#32 = 0x00000063#32 ∧ (0x00208463#32) ≠ 0x00000063#32 := by decide
theorem witness_Beq_equal : (prep 0 7 7 0 [] 0).readReg 1#5 = (prep 0 7 7 0 [] 0).readReg 2#5 := by decide
theorem witness_Beq_different : State.reset.readReg 1#5 ≠ State.reset.readReg 2#5 := by decide
theorem witness_Bne : 0xFE209CE3#32 &&& 0x0000707F#32 = 0x00001063#32 := by decide
theorem witness_Bne_different : State.reset.readReg 1#5 ≠ State.reset.readReg 2#5 := by decide
theorem witness_Bne_equal : State.reset.readReg 3#5 = State.reset.readReg 4#5 := by decide
theorem witness_Jal : 0x7FFFF0EF#32 &&& 0x0000007F#32 = 0x0000006F#32 := by decide
theorem witness_Lw : 0x0040A183#32 &&& 0x0000707F#32 = 0x00002003#32 := by decide
theorem witness_Sw : 0xFE20AFA3#32 &&& 0x0000707F#32 = 0x00002023#32 ∧
    (prep 0 0x100 0 0 [(0xFC, 3#32), (0x100, 1#32), (0xFFFFFFFC, 2#32)] 0).mem.wf := by decide
theorem fetches_of_bools {s : State} {w : Word} (h : s.status = .running ∧ s.pc.toNat % 4 = 0 ∧
    s.imem[s.pc.toNat / 4]? = some w) (hb : s.stepBudget = none) : Fetches s w :=
  ⟨h.1, h.2.1, h.2.2, fun b e => by rw [hb] at e; cases e⟩
theorem witness_Nop : Fetches (prep 8 0 0 0 [] 0) 0#32 ∧ decode 0#32 = .nop := ⟨fetches_of_bools (by decide) rfl, by decide⟩
theorem witness_UnalignedLoad : (prep 0 0x103 0 0 [(0x100, 1#32)] 0).mem.aligned ∧
    (((prep 0 0x103 0 0 [(0x100, 1#32)] 0).readReg 1#5).toNat + (0#12).toInt) % 4 ≠ 0 := by decide

theorem witness_StepChecks_misaligned : (prep 6 0 0 0 [] 0).status = .running ∧ (prep 6 0 0 0 [] 0).pc.toNat % 4 ≠ 0 := by
  decide
theorem witness_StepChecks_pastEnd : let s := { State.reset with pc := 4#32, imem := [0#32] }
    s.status = .running ∧ s.pc.toNat % 4 = 0 ∧ s.imem.length ≤ s.pc.toNat / 4 := by decide
theorem witness_StepChecks_budget : let s := { State.reset with imem := [0#32], steps := 1, stepBudget := some 1 }
    s.status = .running ∧ s.pc.toNat % 4 = 0 ∧ s.pc.toNat / 4 < s.imem.length ∧ s.stepBudget = some 1 ∧ 1 ≤ s.steps := by
  decide
theorem witness_StepRuns_sentinel : Fetches (prep 4 0 0 0 [] 0x63) 0x00000063#32 ∧ decode 0x00000063#32 = .halt :=
  ⟨fetches_of_bools (by decide) rfl, by decide⟩
theorem witness_StepRuns_instruction :
    Fetches { prep 0 0 0 0 [] 0x00500093 with stepBudget := some 1 } 0x00500093#32 ∧ decode 0x00500093#32 ≠ .halt :=
  ⟨⟨by decide, by decide, by decide, fun b e => by injection e with e; subst e; decide⟩, by decide⟩
theorem witness_FetchedSentinel : Fetches (prep 4 0 0 0 [] 0x63) 0x00000063#32 := fetches_of_bools (by decide) rfl
theorem witness_TerminalStatus : { State.reset with status := .stoppedBudget }.status ≠ .running ∧
    State.reset.status = .running := by decide
theorem witness_EachFetch_fetching : ∃ t, step (prep 0 0 0 0 [] 0x63) = .next t ∧ t.steps = 1 :=
  ⟨_, eq_after (by decide), by decide⟩
theorem witness_EachFetch_ending : ∃ t, step State.reset = .next t ∧ t.steps = 0 := ⟨_, eq_after (by decide), by decide⟩
theorem witness_OnlyRd : ∃ t, exec (.jal 1#5 8#21) State.reset = .next t ∧ t.readReg 1#5 ≠ State.reset.readReg 1#5 :=
  ⟨_, eq_after (by decide), by decide⟩
theorem witness_OneRegister : ∃ t, (prep 0 1 2 0 [(4, 1#32)] 0x00208463).mem.wf ∧
    step (prep 0 1 2 0 [(4, 1#32)] 0x00208463) = .next t ∧ t.status = .running :=
  ⟨_, by decide, eq_after (by decide), by decide⟩
theorem witness_OnlyTheSentinel_codes : opcodeOf 0x00000463#32 = 0b1100011#7 ∧ funct3Of 0x00000463#32 = 0b000#3 ∧
    opcodeOf 0x00209463#32 = 0b1100011#7 ∧ funct3Of 0x00209463#32 = 0b001#3 ∧
    opcodeOf 0x0020A463#32 = 0b1100011#7 ∧ 0b010#3 ≤ funct3Of 0x0020A463#32 := by decide
theorem witness_OnlyTheSentinel_other : Fetches (prep 0 0 0 0 [] 0x463) 0x00000463#32 ∧
    (0x00000463#32) ≠ 0x00000063#32 := ⟨fetches_of_bools (by decide) rfl, by decide⟩
theorem witness_OnlyTheSentinel_stop : ∃ t, step (prep 0 0 0 0 [] 0x63) = .next t ∧ t.status = .haltedSentinel :=
  ⟨_, eq_after (by decide), by decide⟩
theorem witness_ProgramAndBudget : ∃ t, step (prep 0 0x100 1 0 [] 0x0020A023) = .next t ∧
    t.mem ≠ (prep 0 0x100 1 0 [] 0x0020A023).mem := ⟨_, eq_after (by decide), by decide⟩
theorem witness_TraceAndSteps : ∃ t, exec .nop State.reset = .next t := ⟨_, eq_after (by decide)⟩

/-- `sw x2, 0(x1)` and then `lw x3, 0(x1)` (95_test_vectors.md E6). -/
def storeThenLoad : State := { prep 0 0x100 0x12345678 0 [] 0 with imem := [0x0020A023#32, 0x0000A183#32] }

theorem witness_OneRegister_store : ∃ t, storeThenLoad.mem.wf ∧ step storeThenLoad = .next t ∧ t.status = .running ∧
    StoreKeyOf (decode 0x0020A023#32) storeThenLoad = some 0x100#32 :=
  ⟨_, by decide, eq_after (by decide), by decide, by decide⟩
theorem witness_NextLoad : ∃ t u, storeThenLoad.mem.wf ∧ Fetches storeThenLoad 0x0020A023#32 ∧
    decode 0x0020A023#32 = .sw 1#5 2#5 0#12 ∧ step storeThenLoad = .next t ∧ Fetches t 0x0000A183#32 ∧
    decode 0x0000A183#32 = .lw 3#5 1#5 0#12 ∧ step t = .next u ∧ loadAddress t 1#5 0#12 = storeAddress storeThenLoad 1#5 0#12 :=
  ⟨_, _, by decide, fetches_of_bools (by decide) rfl, by decide, eq_after (by decide),
    fetches_of_bools (by decide) rfl, by decide, eq_after (by decide), by decide⟩
theorem witness_EqualReads : Memory.wf [(0x100, 5#32)] ∧ ∀ a : Word, Memory.read [(0x100, 5#32)] a = Memory.read [(0x100, 5#32)] a :=
  ⟨by decide, fun _ => rfl⟩

/-- A state that has run one word under a budget of one meets the invariant. -/
def oneStepDone : State := after (step { prep 0 0 0 0 [] 0x00500093 with stepBudget := some 1 })

theorem witness_StepsKeep : oneStepDone.Inv ∧ ∃ t, step oneStepDone = .next t :=
  ⟨{ memoryWf := by decide, memoryAligned := by decide, zeroSlot := by decide, zeroInTrace := by decide
     oneRecordPerFetch := by decide, lastRecord := fun r h => by injection h with h; rw [← h]; rfl
     programFits := by decide, withinBudget := fun b h => by injection h with h; rw [← h]; decide, explained := trivial },
    _, eq_after (by decide)⟩
theorem boot_reset (p : List Word) (b : Option Nat) (h : p.length ≤ Config.maxProgramWords) :
    boot State.reset p b = some { State.reset with imem := p, stepBudget := b } := by
  have e : State.reset.loadProgram p = some { State.reset with imem := p } := if_pos ⟨rfl, h⟩
  show (State.reset.loadProgram p).bind _ = _
  rw [e]
  rfl
theorem witness_Booted : ∃ t, boot State.reset [0x63#32] (some 1) = some t := ⟨_, boot_reset _ _ (by decide)⟩
theorem witness_BudgetBounds : { State.reset with stepBudget := some 0 }.stepBudget = some 0 ∧ State.reset.steps ≤ 0 := by
  decide

/-- Program P5 (95_test_vectors.md): its third step ends in FAULT_PC_MISALIGNED. -/
def misalignedJump : State := { State.reset with imem := [0x00600293#32, 0x000280E7#32, 0x00000063#32] }

theorem witness_PcStays_fault : boot State.reset [0x00600293#32, 0x000280E7#32, 0x00000063#32] none = some misalignedJump ∧
    (runFor 3 misalignedJump).status = .faultPcMisaligned ∧ (runFor 2 misalignedJump).status = .running :=
  ⟨boot_reset _ _ (by decide), by decide, by decide⟩
theorem witness_PcStays_free : FreeOfPcFault 2 misalignedJump := by
  intro k hk
  interval_cases k <;> decide
theorem witness_StraightLine : [0x00500093#32, 0#32].length < 2 ^ 30 ∧
    (∀ w ∈ [0x00500093#32, 0#32], Leaves (decode w) = false) ∧
    ∃ t, boot State.reset [0x00500093#32, 0#32] (referenceBudget [0x00500093#32, 0#32]) = some t :=
  ⟨by decide, List.forall_mem_cons.2 ⟨rfl, List.forall_mem_singleton.2 rfl⟩, _, boot_reset _ _ (by decide)⟩
theorem witness_LongestStraightLine : ∃ (p : List Word) (t : State), p.length = 2 ^ 30 ∧
    (∀ w ∈ p, Leaves (decode w) = false) ∧ boot State.reset p (referenceBudget p) = some t := by
  have h : ∀ n, ∃ p : List Word, p.length = n ∧ ∀ w ∈ p, Leaves (decode w) = false := fun n =>
    ⟨List.replicate n 0#32, List.length_replicate, fun w hw => by rw [List.eq_of_mem_replicate hw]; rfl⟩
  obtain ⟨p, hl, hp⟩ := h (2 ^ 30)
  exact ⟨p, _, hl, hp, boot_reset p _ (Nat.le_of_eq hl)⟩
theorem witness_Dump : State.reset.status = .running ∧ { State.reset with status := .haltedEnd }.status ≠ .running := by
  decide
theorem witness_ProgramText : (List.replicate 32 '1').length = 32 ∧ ∀ c ∈ List.replicate 32 '1', c = '0' ∨ c = '1' :=
  ⟨List.length_replicate, fun _ h => .inr (List.eq_of_mem_replicate h)⟩

end Sys2Proof.Tests
end

