-- ==== Sys2Proof/Proofs/SignExtension.lean ====
section
/-! Sign extension as arithmetic on unsigned values (00_scope.md R12). -/

namespace Sys2Proof

/-- A field that fits in a word keeps its unsigned value; the upper bits of the result weigh `2 ^ 32 - 2 ^ n`. -/
theorem sext_toNat {n : Nat} (v : BitVec n) (hn : n ≤ 32) :
    (sext v).toNat = v.toNat + if v.msb then 2 ^ 32 - 2 ^ n else 0 := by
  unfold sext
  rw [BitVec.toNat_signExtend, BitVec.toNat_setWidth_of_le hn]

/-- Settles O3: the upper bits' weight, added by `sext_toNat` exactly when the field's top bit is 1, is `2 ^ 32 - 2 ^ n`. -/
theorem signExtensionSubtractsTwoToTheWidth : Obligations.SignExtensionSubtractsTwoToTheWidth := by
  intro n v _ hn
  have hpow : 2 ^ n ≤ 2 ^ 32 := Nat.pow_le_pow_right Nat.two_pos hn
  rw [sext_toNat v hn, BitVec.msb_eq_getLsbD_last]
  split
  · exact (Nat.add_sub_assoc hpow v.toNat).symm
  · exact Nat.add_zero v.toNat

end Sys2Proof
end

