-- ==== Sys2Proof/Proofs/StepOutcomes.lean ====
section
/-! What a step leaves, said coarsely: the five branches of `step_cases` as one end before a fetch, the sentinel, or one
retired instruction; and what its checks say as arithmetic. -/

open Sys2Proof.Claims

namespace Sys2Proof.Machine

/-- The sentinel's word alone decodes to HALT: no row of the opcode's own decoders answers it
(40_execution_cycle.md R105). -/
theorem decode_eq_halt_iff (w : Word) : decode w = .halt ↔ w = haltWord := by
  constructor
  · intro h
    unfold decode decodeReg decodeImm decodeLoad decodeStore decodeBranch at h
    split_ifs at h
    assumption
  · rintro rfl
    rfl

/-- The budget is not spent exactly while it allows one more fetch (40_execution_cycle.md R104). -/
theorem budgetSpent_eq_false_iff (s : State) :
    s.budgetSpent = false ↔ ∀ b, s.stepBudget = some b → s.steps < b := by
  unfold State.budgetSpent
  cases s.stepBudget <;> simp

/-- What the step's three checks must answer for it to fetch `w`. -/
theorem fetches_iff (s : State) (w : Word) :
    Fetches s w ↔
      s.status = .running ∧ s.pcMisaligned = false ∧ s.fetchWord = some w ∧ s.budgetSpent = false := by
  simp [Fetches, pcMisaligned_eq, State.fetchWord, budgetSpent_eq_false_iff]

/-- A fetched instruction other than the sentinel is executed and retired, and the block stays RUNNING. -/
theorem step_of_fetches {s u : State} {w : Word} (hf : Fetches s w) (hd : decode w ≠ .halt)
    (hu : exec (decode w) s.countFetch = .next u) : step s = .next u.retire := by
  obtain ⟨hr, hm, hw, hb⟩ := (fetches_iff s w).1 hf
  rw [step_of_fetched hr hm hw hb, runFetched_exec hd hu]

/-- A step ends the run before a fetch, or fetches the sentinel, or retires one other instruction. -/
theorem step_outcomes {s t : State} (h : step s = .next t) :
    (∃ st, st ≠ .running ∧ st ≠ .haltedSentinel ∧ t = s.enter st) ∨
    t = s.countFetch.emit.enter .haltedSentinel ∨
    (∃ u : State, u.status = .running ∧ u.steps = s.steps + 1 ∧ u.trace = s.trace ∧ t = u.retire) := by
  obtain ⟨hr, ⟨-, rfl⟩ | ⟨-, -, rfl⟩ | ⟨-, -, -, rfl⟩ | ⟨w, -, -, -, ⟨-, rfl⟩ | ⟨hd, u, hu, rfl⟩⟩⟩ := step_cases h
  · exact .inl ⟨.faultPcMisaligned, nofun, nofun, rfl⟩
  · exact .inl ⟨.haltedEnd, nofun, nofun, rfl⟩
  · exact .inl ⟨.stoppedBudget, nofun, nofun, rfl⟩
  · exact .inr (.inl rfl)
  · obtain ⟨hstatus, hsteps, htrace, -, -⟩ := exec_frame hd hu
    exact .inr (.inr ⟨u, hstatus.trans hr, hsteps, htrace, rfl⟩)

/-- A run stands still in a terminal status (10_state.md R25). -/
theorem runFor_of_terminal {s : State} (h : s.status ≠ .running) (n : Nat) : runFor n s = s := by
  cases n with
  | zero => rfl
  | succ n => simp [runFor, step_of_terminal h]

theorem runFor_succ_of_step {s t : State} (h : step s = .next t) (n : Nat) :
    runFor (n + 1) s = runFor n t := by
  simp [runFor, h]

/-- One more step at the end of a run. -/
theorem runFor_succ_last {s t : State} {n : Nat} (h : step (runFor n s) = .next t) : runFor (n + 1) s = t := by
  induction n generalizing s with
  | zero => exact runFor_succ_of_step h 0
  | succ n ih =>
    by_cases hr : s.status = .running
    · obtain ⟨u, hu⟩ := step_total hr
      rw [runFor_succ_of_step hu] at h ⊢
      exact ih h
    · rw [runFor_of_terminal hr, step_of_terminal hr] at h
      cases h

/-- Settles O37: R25's stop, from `step_of_terminal`; and `step_total` for a RUNNING state. -/
theorem terminalStatusTakesNoStep : Obligations.TerminalStatusTakesNoStep :=
  fun _ h => ⟨step_of_terminal h, runFor_of_terminal h, fun _ hr => step_total hr⟩

/-- Settles O38: the sentinel and a retired instruction each emit the record of the state they leave, and an end before
a fetch only enters its status. -/
theorem eachFetchAppendsOneRecord : Obligations.EachFetchAppendsOneRecord := by
  intro s t h
  obtain ⟨st, hrun, hsent, rfl⟩ | rfl | ⟨u, hstatus, hsteps, htrace, rfl⟩ := step_outcomes h
  · exact .inr ⟨rfl, hrun, hsent, rfl⟩
  · exact .inl ⟨rfl, .inr rfl, s.snapshot, rfl, rfl, read_zeroForced s.regs⟩
  · refine .inl ⟨hsteps, .inl hstatus, u.forceZero.snapshot, ?_, rfl, read_zeroForced u.forceZero.regs⟩
    rw [retire_trace, htrace]

end Sys2Proof.Machine
end

