-- ==== Sys2Proof/Proofs/Invariant.lean ====
section
/-! The block's invariant: reset and every booted state meet it, and each way a step can go keeps it. -/

namespace Sys2Proof.Machine

/-- Entering a status touches nothing the invariant speaks of but the status, which needs its reason. -/
theorem State.Inv.enter {s : State} (h : s.Inv) {st : Status} (hst : (s.enter st).statusExplained) :
    (s.enter st).Inv :=
  { memoryWf := h.memoryWf, memoryAligned := h.memoryAligned, zeroSlot := h.zeroSlot, zeroInTrace := h.zeroInTrace
    oneRecordPerFetch := h.oneRecordPerFetch, lastRecord := h.lastRecord, programFits := h.programFits
    withinBudget := h.withinBudget, explained := hst }

/-- The record a state emits shows x0 = 0 and the state itself. -/
theorem emit_records {s : State} (h0 : s.regs[0] = 0#32) (htrace : ∀ r ∈ s.trace, r.regs[0] = 0#32) :
    (∀ r ∈ s.emit.trace, r.regs[0] = 0#32) ∧
    ∀ r, s.emit.trace.getLast? = some r → r = { pc := s.pc, regs := s.regs } := by
  have hsnap : s.snapshot = { pc := s.pc, regs := s.regs } := by
    rw [State.snapshot, zeroForced_of_slot h0]
  rw [emit_trace, hsnap]
  constructor
  · intro r hr
    obtain hr | hr := List.mem_append.1 hr
    · exact htrace r hr
    · rw [List.mem_singleton.1 hr]
      exact h0
  · intro r hr
    rw [List.getLast?_concat] at hr
    exact (Option.some.inj hr).symm

/-- A state that has fetched one word more than its trace shows, within its budget and with a reason for its status,
meets the invariant once it emits its record. -/
theorem inv_emit {s : State} (hwf : s.mem.wf) (hal : s.mem.aligned) (h0 : s.regs[0] = 0#32)
    (htrace : ∀ r ∈ s.trace, r.regs[0] = 0#32) (hlen : s.trace.length + 1 = s.steps)
    (hfits : s.imem.length ≤ Config.maxProgramWords) (hbudget : ∀ b, s.stepBudget = some b → s.steps ≤ b)
    (hst : s.statusExplained) : s.emit.Inv :=
  { memoryWf := hwf, memoryAligned := hal, zeroSlot := h0
    zeroInTrace := (emit_records h0 htrace).1
    oneRecordPerFetch := by simpa using hlen
    lastRecord := (emit_records h0 htrace).2
    programFits := hfits, withinBudget := hbudget, explained := hst }

/-- Every instruction keeps the canonical form of memory and its aligned keys: only sw writes, at a masked address. -/
theorem exec_keeps_memory {i : Instr} {s t : State} (h : exec i s = .next t) (hwf : s.mem.wf)
    (hal : s.mem.aligned) : t.mem.wf ∧ t.mem.aligned := by
  obtain ⟨-, rfl⟩ | ⟨rs1, rs2, imm, -, rfl⟩ | ⟨-, _, _, _, rfl⟩ | ⟨-, _, rfl⟩ := exec_cases h
  case inr.inl => exact ⟨write_wf hwf _ _, write_aligned hal (storeAddress_aligned s rs1 imm) _⟩
  all_goals exact ⟨hwf, hal⟩

/-- The fetched sentinel keeps the invariant. -/
theorem State.Inv.sentinel {s : State} (h : s.Inv) (hm : s.pcMisaligned = false)
    (hf : s.fetchWord = some haltWord) (hb : s.budgetSpent = false) :
    (s.countFetch.emit.enter .haltedSentinel).Inv :=
  inv_emit (s := s.countFetch.enter .haltedSentinel) h.memoryWf h.memoryAligned h.zeroSlot h.zeroInTrace
    (congrArg (· + 1) h.oneRecordPerFetch) h.programFits ((budgetSpent_eq_false_iff s).1 hb) ⟨hm, hf⟩

/-- A retired instruction keeps the invariant: memory by `exec_keeps_memory`, the rest by `exec_frame`. -/
theorem State.Inv.retire {s u : State} {i : Instr} (h : s.Inv) (hr : s.status = .running)
    (hb : s.budgetSpent = false) (hi : i ≠ .halt) (hu : exec i s.countFetch = .next u) : u.retire.Inv := by
  obtain ⟨hstatus, hsteps, htrace, himem, hbudget⟩ := exec_frame hi hu
  obtain ⟨hwf, hal⟩ := exec_keeps_memory hu h.memoryWf h.memoryAligned
  refine inv_emit (s := u.forceZero) hwf hal (zeroForced_slot _) ?_ ?_ ?_ ?_ ?_
  · rw [forceZero_trace, htrace]
    exact h.zeroInTrace
  · rw [forceZero_trace, forceZero_steps, htrace, hsteps]
    exact congrArg (· + 1) h.oneRecordPerFetch
  · rw [forceZero_imem, himem]
    exact h.programFits
  · rw [forceZero_stepBudget, forceZero_steps, hbudget, hsteps]
    exact (budgetSpent_eq_false_iff s).1 hb
  · have hrun : u.forceZero.status = .running := hstatus.trans hr
    rw [State.statusExplained, hrun]
    trivial

/-- Settles O46: one lemma for each way a step can go, in the order of its checks. -/
theorem stepsKeepTheInvariant : Obligations.StepsKeepTheInvariant := by
  intro s t hs h
  obtain ⟨hr, ⟨hm, rfl⟩ | ⟨hm, hf, rfl⟩ | ⟨hm, -, hb, rfl⟩ | ⟨w, hm, hf, hb, ⟨hd, rfl⟩ | ⟨hd, u, hu, rfl⟩⟩⟩ :=
    step_cases h
  · exact hs.enter hm
  · exact hs.enter ⟨hm, hf⟩
  · exact hs.enter ⟨hm, hb⟩
  · rw [(decode_eq_halt_iff w).1 hd] at hf
    exact hs.sentinel hm hf hb
  · exact hs.retire hr hb hd hu

end Sys2Proof.Machine
end

