-- ==== Sys2Proof/Proofs/Booting.lean ====
section
/-! The state after reset and after the host's boot (10_state.md R34; 70_reset_and_hazards.md R230, R232). -/

namespace Sys2Proof.Machine

theorem read_replicate_zero (r : RegIdx) : RegFile.read (Vector.replicate 32 0#32) r = 0#32 := by
  by_cases hr : r = 0#5
  · rw [hr, read_zero]
  · rw [read_of_ne _ hr, Vector.getElem_replicate]

/-- After reset x2 holds SP_RESET and every other register 0 (10_state.md R22). -/
theorem reset_readReg (r : RegIdx) : State.reset.readReg r = if r = 2#5 then Config.spReset else 0#32 := by
  have hwrite : State.reset.regs = RegFile.write (Vector.replicate 32 0#32) 2#5 Config.spReset := rfl
  rw [readReg_eq, hwrite, read_write, read_replicate_zero]
  simp

/-- Boot answers the reset state with the host's program and budget, for a program that fits. -/
theorem boot_eq (s : State) (p : List Word) (b : Option Nat) :
    boot s p b = if p.length ≤ Config.maxProgramWords
      then some { State.reset with imem := p, stepBudget := b } else none := by
  have hbefore : State.reset.beforeRun = true := rfl
  unfold boot State.hostReset State.loadProgram
  by_cases hp : p.length ≤ Config.maxProgramWords
  · rw [if_pos ⟨hbefore, hp⟩, if_pos hp]
    rfl
  · rw [if_neg (fun h => hp h.2), if_neg hp]
    rfl

theorem boot_eq_some_iff {s t : State} {p : List Word} {b : Option Nat} :
    boot s p b = some t ↔
      p.length ≤ Config.maxProgramWords ∧ t = { State.reset with imem := p, stepBudget := b } := by
  rw [boot_eq]
  by_cases hp : p.length ≤ Config.maxProgramWords <;> simp [hp, eq_comm]

/-- A step ends the run or counts a fetch, so no state it leaves is one before the run. -/
theorem beforeRun_of_step {s t : State} (h : step s = .next t) : t.beforeRun = false := by
  obtain ⟨st, hrun, -, rfl⟩ | rfl | ⟨u, -, hsteps, -, rfl⟩ := step_outcomes h
  · simp [State.beforeRun, hrun]
  · rfl
  · simp [State.beforeRun, hsteps]

/-- A booted state meets the invariant: no record, no fetch, no cell yet, and a program that fits. -/
theorem booted_inv {p : List Word} (b : Option Nat) (hp : p.length ≤ Config.maxProgramWords) :
    State.Inv { State.reset with imem := p, stepBudget := b } :=
  { memoryWf := reset_mem_wf, memoryAligned := List.forall_mem_nil _, zeroSlot := rfl
    zeroInTrace := List.forall_mem_nil _, oneRecordPerFetch := rfl, lastRecord := nofun, programFits := hp
    withinBudget := fun b' _ => Nat.zero_le b', explained := trivial }

/-- Settles O12: the registers by `reset_readReg`, every other field as the reset state lists it. -/
theorem resetLeavesTheSpecsState : Obligations.ResetLeavesTheSpecsState :=
  fun _ => ⟨reset_readReg, rfl, rfl, rfl, rfl, fun _ => rfl, rfl⟩

/-- Settles O13: `boot_eq` on both sides of the length limit, and `beforeRun_of_step` for the host's refused moves. -/
theorem bootFollowsResetLoadAndBudget : Obligations.BootFollowsResetLoadAndBudget := by
  refine ⟨fun s p b hp => ?_, fun s p b hp => ?_, fun s t p b h => ?_⟩
  · rw [boot_eq]
    exact if_pos hp
  · rw [boot_eq]
    exact if_neg (Nat.not_le.2 hp)
  · simp [State.loadProgram, State.chooseBudget, beforeRun_of_step h]

/-- Settles O47: the reset state is the booted one of the empty program without a budget. -/
theorem bootedStatesMeetTheInvariant : Obligations.BootedStatesMeetTheInvariant := by
  refine ⟨booted_inv (p := []) none (Nat.zero_le _), fun s t p b h => ?_⟩
  obtain ⟨hp, rfl⟩ := boot_eq_some_iff.1 h
  exact booted_inv b hp

end Sys2Proof.Machine
end

