-- ==== Sys2Proof/Proofs/InstructionFrame.lean ====
section
/-! What an instruction writes and reads: the register x0, the one destination, the next pc, and that the trace and the
step counter are read by none (10_state.md R21, R23, R26, R27). -/

open Sys2Proof.Claims

namespace Sys2Proof.Machine

theorem writeReg_zero (s : State) (v : Word) : s.writeReg 0#5 v = s := by
  rw [State.writeReg, write_zero]

/-- A result for x0 is discarded, and only the pc advances. -/
theorem finishWith_zero (s : State) (v : Word) : s.finishWith 0#5 v = s.advance := by
  rw [State.finishWith, writeReg_zero]

/-- A link for x0 is discarded, and only the pc jumps. -/
theorem writeReg_zero_setPc (s : State) (v p : Word) : (s.writeReg 0#5 v).setPc p = s.setPc p := by
  rw [writeReg_zero]

/-- A register written leaves every other one as it reads. -/
theorem readReg_writeReg_of_ne (s : State) {rd r : RegIdx} (v : Word) (h : rd ≠ r) :
    (s.writeReg rd v).readReg r = s.readReg r := by
  rw [readReg_writeReg]
  exact if_neg fun e => h e.1.symm

/-- No instruction changes a register but its destination. -/
theorem exec_readReg_of_not_dest {i : Instr} {s t : State} {r : RegIdx} (h : exec i s = .next t)
    (hr : DestOf i ≠ some r) : t.readReg r = s.readReg r := by
  cases i <;> injection h with h <;> subst h
  case halt | sw | beq | bne | nop => rfl
  all_goals exact readReg_writeReg_of_ne s _ fun e => hr (congrArg some e)

/-- Where each instruction sends control (40_execution_cycle.md R107). -/
theorem exec_pc {i : Instr} {s t : State} (h : exec i s = .next t) : t.pc = NextPcOf i s := by
  cases i <;> injection h with h <;> subst h
  case bne => exact ite_not ..
  all_goals rfl

/-- Control goes on at pc + 4 after every instruction that is no jump, branch or sentinel. -/
theorem nextPcOf_of_not_leaves {i : Instr} (h : Leaves i = false) (s : State) : NextPcOf i s = s.pc + 4#32 := by
  cases i
  case halt | jalr | beq | bne | jal => cases h
  all_goals rfl

/-- Settles O11: no read or write reaches the slot of x0, a retired instruction re-forces it, and every record is a
snapshot, which shows it as 0. -/
theorem registerZeroIsHardwired : Obligations.RegisterZeroIsHardwired := by
  refine ⟨readReg_zero, writeReg_zero, fun s t h => ?_⟩
  have snapshot_appended : ∀ u : State, ∀ r ∈ s.trace ++ [u.snapshot], r ∈ s.trace ∨ r.regs[0] = 0#32 := by
    intro u r hr
    refine (List.mem_append.1 hr).imp_right fun hr => ?_
    rw [List.mem_singleton.1 hr]
    exact zeroForced_slot u.regs
  obtain ⟨st, hrun, -, rfl⟩ | rfl | ⟨u, -, -, htrace, rfl⟩ := step_outcomes h
  · exact ⟨fun e => absurd e hrun, fun r hr => .inl hr⟩
  · exact ⟨nofun, snapshot_appended s.countFetch⟩
  · rw [retire_trace, htrace]
    exact ⟨fun _ => zeroForced_slot u.regs, snapshot_appended u.forceZero⟩

/-- Settles O39: a changed register is the destination, by `exec_readReg_of_not_dest`, and the case split lists the
twelve instructions that have one. -/
theorem onlyRdIsWritten : Obligations.OnlyRdIsWritten := by
  intro i s t r h hne
  have hdest : DestOf i = some r := not_imp_comm.1 (exec_readReg_of_not_dest h) hne
  cases i <;> cases hdest
  case add rs1 rs2 | sub rs1 rs2 | sll rs1 rs2 | slt rs1 rs2 | srl rs1 rs2 | or rs1 rs2 | and rs1 rs2 =>
    exact .inl ⟨rs1, rs2, by simp⟩
  case addi rs1 imm | sltiu rs1 imm | lw rs1 imm | jalr rs1 imm => exact .inr (.inl ⟨rs1, imm, by simp⟩)
  case jal imm => exact .inr (.inr ⟨imm, rfl⟩)

/-- Settles O43: each instruction computes the fields listed from fields that are neither the trace nor the counter. -/
theorem traceAndStepsAreInvisible : Obligations.TraceAndStepsAreInvisible := by
  intro i s t tr n h
  cases i <;> injection h with h <;> subst h
  all_goals exact ⟨_, rfl, rfl, rfl, rfl, rfl, rfl, rfl⟩

/-- Settles O31: the ten instructions end in `finishWith`, which `finishWith_zero` makes a NOP's advance; the two jumps
discard their link by `writeReg_zero_setPc`. -/
theorem resultsInRegisterZeroAreDiscarded : Obligations.ResultsInRegisterZeroAreDiscarded := by
  intro s rs1 rs2 imm off
  refine ⟨?_, ⟨jalrTarget s rs1 imm, congrArg Host.Outcome.next (writeReg_zero_setPc s s.nextPc _)⟩,
    ⟨jalTarget s off, congrArg Host.Outcome.next (writeReg_zero_setPc s s.nextPc _)⟩⟩
  simp only [List.forall_mem_cons]
  refine ⟨?_, ?_, ?_, ?_, ?_, ?_, ?_, ?_, ?_, ?_, List.forall_mem_nil _⟩ <;>
    exact congrArg Host.Outcome.next (finishWith_zero s _)

end Sys2Proof.Machine
end

