-- ==== Sys2Proof/Proofs/StraightLine.lean ====
section
/-! A run of a program with no jump, branch or sentinel: after k steps it stands before word k, modulo 2^32
(10_state.md R24; 40_execution_cycle.md R103, R104). -/

open Sys2Proof.Claims

namespace Sys2Proof.Machine

/-- The run has executed `k` words of the program `p` one after the other, under the budget `b`. -/
structure StraightLineAt (p : List Word) (b : Option Nat) (k : Nat) (s : State) : Prop where
  running : s.status = .running
  fetched : s.steps = k
  pc : s.pc = BitVec.ofNat 32 (4 * k)
  program : s.imem = p
  budget : s.stepBudget = b

/-- A fetched instruction that does not leave the straight line takes the run one word further. -/
theorem StraightLineAt.step {p : List Word} {b : Option Nat} {k : Nat} {s : State} {w : Word}
    (h : StraightLineAt p b k s) (hf : Fetches s w) (hl : Leaves (decode w) = false) :
    ∃ t, Machine.step s = .next t ∧ StraightLineAt p b (k + 1) t := by
  have hd : decode w ≠ .halt := fun e => by rw [e] at hl; cases hl
  obtain ⟨u, hu⟩ := exec_total (decode w) s.countFetch
  obtain ⟨hstatus, hsteps, -, himem, hbudget⟩ := exec_frame hd hu
  refine ⟨_, step_of_fetches hf hd hu, ?_⟩
  constructor
  case running => exact hstatus.trans h.running
  case fetched => rw [retire_steps, hsteps, countFetch_steps, h.fetched]
  case pc =>
    rw [retire_pc, exec_pc hu, nextPcOf_of_not_leaves hl, countFetch_pc, h.pc, ← BitVec.ofNat_add, Nat.mul_succ]
  case program => exact himem.trans h.program
  case budget => exact hbudget.trans h.budget

/-- The pc before word `k` of a program of at most 2^30 words does not wrap, so word `k` is fetched. -/
theorem StraightLineAt.fetches {p : List Word} {b : Option Nat} {k : Nat} {s : State} (h : StraightLineAt p b k s)
    (hp : p.length ≤ 2 ^ 30) (hk : k < p.length) (hb : ∀ n, b = some n → k < n) : Fetches s p[k] := by
  have hpc : s.pc.toNat = 4 * k := by
    rw [h.pc, BitVec.toNat_ofNat]
    omega
  refine ⟨h.running, by omega, ?_, ?_⟩
  · rw [h.program, hpc, Nat.mul_div_cancel_left k (by decide), List.getElem?_eq_getElem hk]
  · rw [h.budget, h.fetched]
    exact hb

/-- The reference budget, or none, allows every word of the program to be fetched. -/
theorem budget_allows {p : List Word} {b : Option Nat} (hb : b = none ∨ b = referenceBudget p) {k : Nat}
    (hk : k < p.length) : ∀ n, b = some n → k < n := by
  rintro n rfl
  obtain hb | hb := hb
  · cases hb
  · rwa [Option.some.inj hb]

/-- A booted straight-line program runs its first `k` words in order. -/
theorem straightLineAt_runFor {p : List Word} {b : Option Nat} (hp : p.length ≤ 2 ^ 30)
    (hl : ∀ w ∈ p, Leaves (decode w) = false) (hb : b = none ∨ b = referenceBudget p) {k : Nat} (hk : k ≤ p.length) :
    StraightLineAt p b k (runFor k { State.reset with imem := p, stepBudget := b }) := by
  induction k with
  | zero => exact ⟨rfl, rfl, rfl, rfl, rfl⟩
  | succ k ih =>
    have hat := ih (Nat.le_of_lt hk)
    obtain ⟨t, ht, hnext⟩ := hat.step (hat.fetches hp hk (budget_allows hb hk)) (hl _ (List.getElem_mem hk))
    rwa [runFor_succ_last ht]

/-- Settles O53: after 2^30 words `straightLineAt_runFor` puts the pc at 4 * 2^30, which wraps to 0, the first word's
address; there the reference budget is spent, and no budget never is. -/
theorem longestStraightLineProgramWraps : Obligations.LongestStraightLineProgramWraps := by
  intro s t p b hlen hl hb hboot
  obtain ⟨-, rfl⟩ := boot_eq_some_iff.1 hboot
  have hat := straightLineAt_runFor (Nat.le_of_eq hlen) hl hb (Nat.le_refl p.length)
  have hpc : (runFor p.length { State.reset with imem := p, stepBudget := b }).pc = 0#32 := by
    rw [hat.pc, hlen]
    rfl
  have hpos : 0 < p.length := by omega
  generalize hend : runFor p.length { State.reset with imem := p, stepBudget := b } = e at hat hpc
  have hfirst : e.imem[e.pc.toNat / 4]? = some p[0] := by
    rw [hpc, hat.program]
    exact List.getElem?_eq_getElem hpos
  refine ⟨hat.running, hat.fetched, hpc, ?_, ?_⟩
  · rintro rfl
    have hm : e.pcMisaligned = false := by rw [pcMisaligned_eq, hpc]; rfl
    have hspent : e.budgetSpent = true := by
      simp [State.budgetSpent, hat.budget, hat.fetched, referenceBudget]
    rw [runFor_succ_last (hend ▸ step_of_budgetSpent hat.running hm hfirst hspent), enter_status]
  · rintro rfl
    have hf : Fetches e p[0] := ⟨hat.running, by rw [hpc]; rfl, hfirst, fun n hn => by rw [hat.budget] at hn; cases hn⟩
    obtain ⟨u, hu, hnext⟩ := hat.step hf (hl _ (List.getElem_mem hpos))
    rw [runFor_succ_last (hend ▸ hu)]
    exact ⟨hnext.running, hnext.fetched⟩

end Sys2Proof.Machine
end

