-- ==== Sys2Proof/Proofs/LoadStore.lean ====
section
/-! Loads and stores: the effective address as arithmetic, what an instruction that ends in `finishWith` computes, and
what the step of a fetched sw or lw leaves (20_memory.md R43, R44, R50; 43_load_store.md R170, R171). -/

open Sys2Proof.Claims

namespace Sys2Proof.Machine

/-- A register plus a signed immediate, modulo 2^32 (20_memory.md R43; 00_scope.md R12). -/
theorem add_sext_eq_ofInt {n : Nat} (a : Word) (imm : BitVec n) :
    a + sext imm = BitVec.ofInt 32 (a.toNat + imm.toInt) := by
  rw [BitVec.ofInt_add, BitVec.ofInt_natCast, BitVec.ofNat_toNat, BitVec.setWidth_eq]
  rfl

theorem loadAddress_eq_ofInt (s : State) (rs1 : RegIdx) (imm : BitVec 12) :
    loadAddress s rs1 imm = BitVec.ofInt 32 ((s.readReg rs1).toNat + imm.toInt) :=
  add_sext_eq_ofInt _ _

/-- Wrapping at 2^32 keeps an address's remainder modulo 4. -/
theorem ofInt_toNat_mod_four (i : Int) : ((BitVec.ofInt 32 i).toNat : Int) % 4 = i % 4 := by
  rw [BitVec.toNat_ofInt]
  omega

/-- An instruction that writes `v` to `rd` and advances the pc computes `v` (41_alu.md; 43_load_store.md R170). -/
theorem computes_of_finishWith {i : Instr} {s : State} {rd : RegIdx} {v : Word}
    (h : exec i s = .next (s.finishWith rd v)) : Computes i s rd v (s.pc + 4#32) :=
  ⟨_, h, fun r => readReg_finishWith s rd r v, rfl, fun _ => rfl, rfl, rfl, rfl, rfl, rfl⟩

/-- The step of a fetched sw sets the cell at the store's key to the old source register and no other cell. -/
theorem step_sw_loadWord {s t : State} {w : Word} {rs1 rs2 : RegIdx} {imm : BitVec 12} (hwf : s.mem.wf)
    (hf : Fetches s w) (hd : decode w = .sw rs1 rs2 imm) (h : step s = .next t) (a : Word) :
    t.loadWord a = if a = storeAddress s rs1 imm then s.readReg rs2 else s.loadWord a := by
  rw [step_of_fetches hf (by rw [hd]; nofun) (by rw [hd]; rfl)] at h
  cases h
  exact loadWord_storeWord (s := s.countFetch) hwf _ a _

/-- The step of a fetched lw puts the cell at the load's key in rd, unless rd is x0, and changes no other register. -/
theorem step_lw_readReg {s t : State} {w : Word} {rd rs1 : RegIdx} {imm : BitVec 12} (hf : Fetches s w)
    (hd : decode w = .lw rd rs1 imm) (h : step s = .next t) (r : RegIdx) :
    t.readReg r = if r = rd ∧ rd ≠ 0#5 then s.loadWord (loadAddress s rs1 imm) else s.readReg r := by
  rw [step_of_fetches hf (by rw [hd]; nofun) (by rw [hd]; rfl)] at h
  cases h
  rw [readReg_retire]
  exact readReg_finishWith s.countFetch rd r _

/-- Settles O32: the address is no multiple of 4 even after wrapping at 2^32, and where every listed key is one,
`read_unaligned` gives 0. -/
theorem unalignedLoadGivesZero : Obligations.UnalignedLoadGivesZero := by
  intro s rd rs1 imm hal hne
  have hkey : (loadAddress s rs1 imm).toNat % 4 ≠ 0 := by
    have hmod := ofInt_toNat_mod_four ((s.readReg rs1).toNat + imm.toInt)
    rw [← loadAddress_eq_ofInt] at hmod
    omega
  have hzero : s.loadWord (loadAddress s rs1 imm) = 0#32 := read_unaligned hal hkey
  exact computes_of_finishWith (by rw [← hzero]; rfl)

/-- Settles O44: the lw's step reads the cell as the sw's step left it. -/
theorem nextLoadSeesTheStore : Obligations.NextLoadSeesTheStore := by
  intro s t u w w' rs1 rs2 rd base imm off hwf hsw hdsw hst hlw hdlw htu
  by_cases hrd : rd = 0#5
  · rw [if_pos hrd, hrd, readReg_zero]
  · rw [if_neg hrd, step_lw_readReg hlw hdlw htu, if_pos ⟨rfl, hrd⟩, step_sw_loadWord hwf hsw hdsw hst]

end Sys2Proof.Machine
end

