-- ==== Sys2Proof/Proofs/CanonicalMemory.lean ====
section
/-! The canonical form of data memory lists exactly the nonzero cells, so reads determine it (20_memory.md R40;
log 5). -/

namespace Sys2Proof.Machine

/-- A key that reads as anything but an unlisted cell is listed with what it reads. -/
theorem mem_of_cellAt_ne {m : Memory} {k : Nat} (h : cellAt m k ≠ unlistedCell) : (k, cellAt m k) ∈ m := by
  induction m with
  | nil => exact absurd rfl h
  | cons c m ih =>
    by_cases hk : c.1 = k
    · simp [cellAt, ← hk]
    · simp only [cellAt, if_neg hk] at h ⊢
      exact List.mem_cons_of_mem c (ih h)

/-- A canonical memory lists exactly the cells that do not read as unlisted ones. -/
theorem Memory.wf.mem_iff {m : Memory} (h : m.wf) (c : MemCell) :
    c ∈ m ↔ c.2 ≠ unlistedCell ∧ cellAt m c.1 = c.2 := by
  constructor
  · exact fun hc => ⟨(h.2 c hc).2, cellAt_of_mem h.1 hc⟩
  · rintro ⟨hne, hread⟩
    have hmem := mem_of_cellAt_ne (hread ▸ hne)
    rwa [hread] at hmem

/-- No cell is listed at a key that is no 32-bit address. -/
theorem Memory.wf.cellAt_of_ge {m : Memory} (h : m.wf) {k : Nat} (hk : 2 ^ 32 ≤ k) : cellAt m k = unlistedCell := by
  by_contra hne
  exact absurd (h.2 _ (mem_of_cellAt_ne hne)).1 (Nat.not_lt.2 hk)

/-- Canonical memories that read the same at every 32-bit address have the same cell at every key. -/
theorem cellAt_eq_of_read_eq {m n : Memory} (hm : m.wf) (hn : n.wf) (h : ∀ a : Word, m.read a = n.read a) (k : Nat) :
    cellAt m k = cellAt n k := by
  by_cases hk : k < 2 ^ 32
  · have hread := h (BitVec.ofNat 32 k)
    rwa [Memory.read, Memory.read, BitVec.toNat_ofNat, Nat.mod_eq_of_lt hk] at hread
  · rw [hm.cellAt_of_ge (Nat.not_lt.1 hk), hn.cellAt_of_ge (Nat.not_lt.1 hk)]

/-- Settles O45: the two lists have the same members, by `Memory.wf.mem_iff`, and both have rising keys. -/
theorem equalReadsMeanEqualMemories : Obligations.EqualReadsMeanEqualMemories := by
  intro m n hm hn h
  refine hm.1.eq_of_mem_iff hn.1 fun c => ?_
  rw [hm.mem_iff, hn.mem_iff, cellAt_eq_of_read_eq hm hn h]

end Sys2Proof.Machine
end

