-- ==== Sys2Proof/Proofs/DumpWindow.lean ====
section
/-! The window the dump shows: its base, its keys and its order (20_memory.md R41; 40_execution_cycle.md R110). -/

namespace Sys2Proof

/-- DMEM_BASE is far below 2^32, so its number does not wrap (20_memory.md R41; log 4). -/
theorem Config.dmemBase_toNat : Config.dmemBase.toNat = 4 * (Config.windowChoice % (2 ^ 30 - 31)) := by
  unfold Config.dmemBase
  rw [BitVec.toNat_ofNat]
  omega

namespace Machine

/-- In a window that does not wrap, word `k` has the key base + 4k. -/
theorem windowKey_toNat {base : Word} (hbase : base.toNat + 124 < 2 ^ 32) {k : Nat} (hk : k < Config.windowWords) :
    (windowKey base k).toNat = base.toNat + 4 * k := by
  have hk : k < 32 := hk
  unfold windowKey Config.windowStride
  rw [BitVec.toNat_add, BitVec.toNat_ofNat]
  omega

theorem windowAt_length (base : Word) (s : State) : (windowAt base s).length = Config.windowWords := by
  simp [windowAt]

theorem windowAt_getElem? (base : Word) (s : State) {k : Nat} (hk : k < Config.windowWords) :
    (windowAt base s)[k]? = some (windowKey base k, s.loadWord (windowKey base k)) := by
  simp [windowAt, List.getElem?_range hk]

/-- Settles O51: the base by `Config.dmemBase_toNat`; the dump is the window at it, word by word. -/
theorem dumpShowsTheWindow : Obligations.DumpShowsTheWindow := by
  have hbase : Config.dmemBase.toNat % 4 = 0 ∧ Config.dmemBase.toNat + 124 < 2 ^ 32 := by
    rw [Config.dmemBase_toNat]
    omega
  obtain ⟨haligned, hfits⟩ := hbase
  refine ⟨haligned, hfits, fun s hs => if_pos hs, fun s hs => ?_⟩
  exact ⟨windowAt Config.dmemBase s, if_neg hs, windowAt_length _ s, fun k hk =>
    ⟨windowKey Config.dmemBase k, windowKey_toNat hfits hk, windowAt_getElem? _ s hk⟩⟩

end Machine

end Sys2Proof
end

