-- ==== Sys2Proof/Proofs/WordFields.lean ====
section
/-! A word and its fields, in both directions: the fields as arithmetic, and a word put together again from the fields
of its format (30_encoding.md R61, R62). -/

namespace Sys2Proof

/-- A field is the remainder of a quotient. -/
theorem extractLsb'_toNat_eq_div_mod (w : Word) (lo n : Nat) :
    (w.extractLsb' lo n).toNat = w.toNat / 2 ^ lo % 2 ^ n := by
  rw [BitVec.extractLsb'_toNat, Nat.shiftRight_eq_div_pow]

/-- Settles O1: `extractLsb'_toNat_eq_div_mod` at each field's place; opcode starts at bit 0, and a word has no bit
above funct7. -/
theorem fieldsAreTheirBits : Obligations.FieldsAreTheirBits := by
  intro w
  have hopcode : (opcodeOf w).toNat = w.toNat % 2 ^ 7 := by
    rw [opcodeOf, extractLsb'_toNat_eq_div_mod, pow_zero, Nat.div_one]
  have hfunct7 : (funct7Of w).toNat = w.toNat / 2 ^ 25 := by
    rw [funct7Of, extractLsb'_toNat_eq_div_mod]
    omega
  exact ⟨hopcode, extractLsb'_toNat_eq_div_mod w 7 5, extractLsb'_toNat_eq_div_mod w 12 3,
    extractLsb'_toNat_eq_div_mod w 15 5, extractLsb'_toNat_eq_div_mod w 20 5, hfunct7, rfl⟩

/-- The six fields lie side by side and leave no bit out. -/
theorem fields_append (w : Word) :
    (funct7Of w ++ rs2Of w ++ rs1Of w ++ funct3Of w ++ rdOf w ++ opcodeOf w).cast rfl = w := by
  apply BitVec.eq_of_getLsbD_eq
  intro i hi
  simp only [opcodeOf, rdOf, funct3Of, rs1Of, rs2Of, funct7Of, BitVec.getLsbD_cast, BitVec.getLsbD_append,
    BitVec.getLsbD_extractLsb']
  interval_cases i <;> simp

theorem eq_iff_fields (v w : Word) : v = w ↔
    opcodeOf v = opcodeOf w ∧ rdOf v = rdOf w ∧ funct3Of v = funct3Of w ∧ rs1Of v = rs1Of w ∧ rs2Of v = rs2Of w ∧
    funct7Of v = funct7Of w := by
  constructor
  · rintro rfl
    exact ⟨rfl, rfl, rfl, rfl, rfl, rfl⟩
  · rintro ⟨hop, hrd, hf3, hrs1, hrs2, hf7⟩
    rw [← fields_append v, hop, hrd, hf3, hrs1, hrs2, hf7, fields_append]

theorem encodeR_of_fields {w : Word} (h : opcodeOf w = opReg) :
    encodeR (funct7Of w) (funct3Of w) (rdOf w) (rs1Of w) (rs2Of w) = w := by
  rw [encodeR, ← h]
  exact fields_append w

theorem encodeI_of_fields {w : Word} {op : BitVec 7} (h : opcodeOf w = op) :
    encodeI op (funct3Of w) (rdOf w) (rs1Of w) (immIOf w) = w := by
  have himm : funct7Of w ++ rs2Of w = immIOf w := BitVec.extractLsb'_append_extractLsb'_eq_extractLsb' rfl
  rw [encodeI, ← h, ← himm]
  exact fields_append w

theorem encodeS_of_fields {w : Word} (h : opcodeOf w = opStore) :
    encodeS (funct3Of w) (rs1Of w) (rs2Of w) (immSOf w) = w := by
  have hupper : (immSOf w).extractLsb' 5 7 = funct7Of w := BitVec.extractLsb'_append_eq_left
  have hlower : (immSOf w).extractLsb' 0 5 = rdOf w := BitVec.extractLsb'_append_eq_right
  rw [encodeS, hupper, hlower, ← h]
  exact fields_append w

theorem encodeB_of_fields {w : Word} (h : opcodeOf w = opBranch) :
    encodeB (funct3Of w) (rs1Of w) (rs2Of w) (immBOf w) = w := by
  apply BitVec.eq_of_getLsbD_eq
  intro i hi
  simp only [encodeB, ← h, opcodeOf, funct3Of, rs1Of, rs2Of, immBOf, BitVec.getLsbD_cast, BitVec.getLsbD_append,
    BitVec.getLsbD_extractLsb']
  interval_cases i <;> simp

theorem encodeJ_of_fields {w : Word} (h : opcodeOf w = opJal) : encodeJ (rdOf w) (immJOf w) = w := by
  apply BitVec.eq_of_getLsbD_eq
  intro i hi
  simp only [encodeJ, ← h, opcodeOf, rdOf, immJOf, BitVec.getLsbD_cast, BitVec.getLsbD_append,
    BitVec.getLsbD_extractLsb']
  interval_cases i <;> simp

/-- Bit 0 of an assembled B immediate is the appended 0 (30_encoding.md R65). -/
theorem immBOf_getLsbD_zero (w : Word) : (immBOf w).getLsbD 0 = false := by
  rw [immBOf, BitVec.getLsbD_cast, BitVec.getLsbD_append]
  rfl

/-- Bit 0 of an assembled J immediate is the appended 0 (30_encoding.md R66). -/
theorem immJOf_getLsbD_zero (w : Word) : (immJOf w).getLsbD 0 = false := by
  rw [immJOf, BitVec.getLsbD_cast, BitVec.getLsbD_append]
  rfl

theorem immBOf_even (w : Word) : evenImmB (immBOf w) = true := by
  rw [evenImmB, immBOf_getLsbD_zero]
  rfl

theorem immJOf_even (w : Word) : evenImmJ (immJOf w) = true := by
  rw [evenImmJ, immJOf_getLsbD_zero]
  rfl

end Sys2Proof
end

