-- ==== Sys2Proof/Proofs/TableRows.lean ====
section
/-! The opcode table read by fields: which fields select a row, and the instruction a row makes of a word. `decode` and
the table's masks are both held to it (30_encoding.md R67 to R71). -/

namespace Sys2Proof

/-- The fields that select a kind's row (30_encoding.md R68, R69); the default's row asks nothing. -/
def RowFields (w : Word) : Kind → Prop
  | .halt => w = haltWord
  | .add => opcodeOf w = opReg ∧ funct3Of w = 0b000#3 ∧ funct7Of w = 0b0000000#7
  | .sub => opcodeOf w = opReg ∧ funct3Of w = 0b000#3 ∧ funct7Of w = 0b0100000#7
  | .sll => opcodeOf w = opReg ∧ funct3Of w = 0b001#3 ∧ funct7Of w = 0b0000000#7
  | .slt => opcodeOf w = opReg ∧ funct3Of w = 0b010#3 ∧ funct7Of w = 0b0000000#7
  | .srl => opcodeOf w = opReg ∧ funct3Of w = 0b101#3 ∧ funct7Of w = 0b0000000#7
  | .or => opcodeOf w = opReg ∧ funct3Of w = 0b110#3 ∧ funct7Of w = 0b0000000#7
  | .and => opcodeOf w = opReg ∧ funct3Of w = 0b111#3 ∧ funct7Of w = 0b0000000#7
  | .addi => opcodeOf w = opImm ∧ funct3Of w = 0b000#3
  | .sltiu => opcodeOf w = opImm ∧ funct3Of w = 0b011#3
  | .jalr => opcodeOf w = opJalr
  | .lw => opcodeOf w = opLoad ∧ funct3Of w = 0b010#3
  | .sw => opcodeOf w = opStore ∧ funct3Of w = 0b010#3
  | .beq => opcodeOf w = opBranch ∧ funct3Of w = 0b000#3
  | .bne => opcodeOf w = opBranch ∧ funct3Of w = 0b001#3
  | .jal => opcodeOf w = opJal
  | .nop => True

/-- The instruction of a kind with the operands its format takes from the word (30_encoding.md R61 to R66). -/
def rowInstr (w : Word) : Kind → Instr
  | .halt => .halt
  | .add => .add (rdOf w) (rs1Of w) (rs2Of w)
  | .sub => .sub (rdOf w) (rs1Of w) (rs2Of w)
  | .sll => .sll (rdOf w) (rs1Of w) (rs2Of w)
  | .slt => .slt (rdOf w) (rs1Of w) (rs2Of w)
  | .srl => .srl (rdOf w) (rs1Of w) (rs2Of w)
  | .or => .or (rdOf w) (rs1Of w) (rs2Of w)
  | .and => .and (rdOf w) (rs1Of w) (rs2Of w)
  | .addi => .addi (rdOf w) (rs1Of w) (immIOf w)
  | .sltiu => .sltiu (rdOf w) (rs1Of w) (immIOf w)
  | .jalr => .jalr (rdOf w) (rs1Of w) (immIOf w)
  | .lw => .lw (rdOf w) (rs1Of w) (immIOf w)
  | .sw => .sw (rs1Of w) (rs2Of w) (immSOf w)
  | .beq => .beq (rs1Of w) (rs2Of w) (immBOf w)
  | .bne => .bne (rs1Of w) (rs2Of w) (immBOf w)
  | .jal => .jal (rdOf w) (immJOf w)
  | .nop => .nop

@[simp] theorem kindOf_rowInstr (w : Word) (k : Kind) : kindOf (rowInstr w k) = k := by
  cases k <;> rfl

/-- A masked word is compared field by field. -/
theorem and_eq_iff_fields (w mask val : Word) : w &&& mask = val ↔
    opcodeOf w &&& opcodeOf mask = opcodeOf val ∧ rdOf w &&& rdOf mask = rdOf val ∧
    funct3Of w &&& funct3Of mask = funct3Of val ∧ rs1Of w &&& rs1Of mask = rs1Of val ∧
    rs2Of w &&& rs2Of mask = rs2Of val ∧ funct7Of w &&& funct7Of mask = funct7Of val := by
  simp only [eq_iff_fields, opcodeOf, rdOf, funct3Of, rs1Of, rs2Of, funct7Of, BitVec.extractLsb'_and]

/-- A row's mask covers exactly the fields that select it, and its match holds their values (30_encoding.md R69). -/
theorem matchesRow_iff (w : Word) (k : Kind) : matchesRow w k = true ↔ RowFields w k := by
  have hseven (x : BitVec 7) : x &&& 127#7 = x := BitVec.and_allOnes
  have hthree (x : BitVec 3) : x &&& 7#3 = x := BitVec.and_allOnes
  rw [matchesRow, beq_iff_eq]
  cases k
  case halt =>
    have hmask : w &&& rowMask .halt = w := BitVec.and_allOnes
    rw [hmask]
    rfl
  case nop => simp [rowMask, rowMatch, RowFields]
  all_goals
    rw [and_eq_iff_fields]
    simp [rowMask, rowMatch, RowFields, opcodeOf, rdOf, funct3Of, rs1Of, rs2Of, funct7Of, opReg, opImm, opJalr,
      opLoad, opStore, opBranch, opJal, hseven, hthree]

/-- The decoder answers the instruction of a row whose fields the word has. -/
theorem decode_follows_row (w : Word) :
    RowFields w (kindOf (decode w)) ∧ decode w = rowInstr w (kindOf (decode w)) := by
  unfold decode decodeReg decodeImm decodeLoad decodeStore decodeBranch
  split_ifs <;> exact ⟨by simp only [RowFields, kindOf, *, and_self], rfl⟩

/-- The sentinel has the fields of no row but its own, beq's and the default's. -/
theorem rowFields_haltWord {k : Kind} (h : RowFields haltWord k) : k = .halt ∨ k = .beq ∨ k = .nop := by
  rw [← matchesRow_iff] at h
  revert h
  cases k <;> decide

/-- A word with the fields of a row decodes to the row's instruction, the sentinel's own row before beq's. -/
theorem decode_of_rowFields {w : Word} {k : Kind} (h : RowFields w k) (hk : k ≠ .nop)
    (hbeq : k = .beq → w ≠ haltWord) : decode w = rowInstr w k := by
  by_cases hw : w = haltWord
  · subst hw
    obtain rfl | rfl | rfl := rowFields_haltWord h
    · rfl
    · exact absurd rfl (hbeq rfl)
    · exact absurd rfl hk
  · cases k
    case halt => exact absurd h hw
    case nop => exact absurd rfl hk
    all_goals
      simp only [RowFields] at h
      simp [decode, decodeReg, decodeImm, decodeLoad, decodeStore, decodeBranch, rowInstr, hw, h, opReg, opImm,
        opJalr, opLoad, opStore, opBranch, opJal]

/-- Settles O4: `matchesRow_iff` reads a row's mask as fields; `decode_follows_row` gives the decoded kind's row, and
`decode_of_rowFields` shows that a matching row is the decoded kind's, but for the sentinel on beq's row. -/
theorem decoderSelectsTheTableRow : Obligations.DecoderSelectsTheTableRow := by
  intro w
  refine ⟨(matchesRow_iff w _).2 (decode_follows_row w).1, fun k hk hmatch => ?_⟩
  by_cases hsentinel : k = .beq ∧ w = haltWord
  · obtain ⟨hbeq, rfl⟩ := hsentinel
    exact .inr ⟨hbeq, rfl, rfl⟩
  · have hdecode : decode w = rowInstr w k :=
      decode_of_rowFields ((matchesRow_iff w k).1 hmatch) hk fun hbeq hw => hsentinel ⟨hbeq, hw⟩
    rw [hdecode]
    exact .inl (kindOf_rowInstr w k)

end Sys2Proof
end

