-- ==== Sys2Proof/Proofs/EncodeDecode.lean ====
section
/-! The encoder and the decoder are inverse to each other, up to what a NOP and a jalr do not hold (30_encoding.md R61
to R72; log 7). -/

namespace Sys2Proof

/-- The word of an instruction has the fields of the instruction's row (30_encoding.md R69). -/
theorem rowFields_encode (i : Instr) : RowFields (encode i) (kindOf i) := by
  cases i <;>
    simp [RowFields, kindOf, encode, fields_encodeR, fields_encodeI, fields_encodeS, fields_encodeB, fields_encodeJ]

/-- The operands of a well-formed instruction stand in its word: only bit 0 of a branch or jump offset does not, and it
is 0. -/
theorem rowInstr_encode {i : Instr} (h : i.wellFormed = true) : rowInstr (encode i) (kindOf i) = i := by
  cases i
  case beq rs1 rs2 imm =>
    have heven : evenImmB imm = true := (Bool.and_eq_true_iff.1 h).1
    simp [rowInstr, kindOf, encode, fields_encodeB, immBOf_encodeB _ _ _ heven]
  case bne rs1 rs2 imm => simp [rowInstr, kindOf, encode, fields_encodeB, immBOf_encodeB _ _ _ h]
  case jal rd imm => simp [rowInstr, kindOf, encode, fields_encodeJ, immJOf_encodeJ _ h]
  all_goals simp [rowInstr, kindOf, encode, fields_encodeR, fields_encodeI, fields_encodeS]

/-- A row's instruction is encoded as the word it came from; for a jalr only when the word has the funct3 the encoder
writes (30_encoding.md R70; log 7). -/
theorem encode_rowInstr {w : Word} {k : Kind} (h : RowFields w k) (hk : k ≠ .nop)
    (hjalr : k = .jalr → funct3Of w = 0b000#3) : encode (rowInstr w k) = w := by
  cases k
  case halt => exact h.symm
  case nop => exact absurd rfl hk
  case jalr =>
    rw [rowInstr, encode, ← hjalr rfl]
    exact encodeI_of_fields h
  case jal => exact encodeJ_of_fields h
  case addi | sltiu | lw =>
    obtain ⟨hop, hf3⟩ := h
    rw [rowInstr, encode, ← hf3]
    exact encodeI_of_fields hop
  case sw =>
    obtain ⟨hop, hf3⟩ := h
    rw [rowInstr, encode, ← hf3]
    exact encodeS_of_fields hop
  case beq | bne =>
    obtain ⟨hop, hf3⟩ := h
    rw [rowInstr, encode, ← hf3]
    exact encodeB_of_fields hop
  all_goals
    obtain ⟨hop, hf3, hf7⟩ := h
    rw [rowInstr, encode, ← hf3, ← hf7]
    exact encodeR_of_fields hop

/-- No word but the sentinel has beq's fields and the operands of `beq x0, x0, 0` (30_encoding.md R72). -/
theorem eq_haltWord_of_isSentinelBeq {w : Word} (h : RowFields w .beq)
    (hzero : isSentinelBeq (rs1Of w) (rs2Of w) (immBOf w) = true) : w = haltWord := by
  have hoperands : (rs1Of w = 0#5 ∧ rs2Of w = 0#5) ∧ immBOf w = 0#13 := by simpa [isSentinelBeq] using hzero
  obtain ⟨⟨hrs1, hrs2⟩, himm⟩ := hoperands
  rw [← encode_rowInstr h nofun nofun, rowInstr, hrs1, hrs2, himm]
  rfl

/-- A beq with the sentinel's word is `beq x0, x0, 0`, which is not well formed (30_encoding.md R72). -/
theorem encode_beq_ne_haltWord {i : Instr} (h : i.wellFormed = true) (hbeq : kindOf i = .beq) :
    encode i ≠ haltWord := by
  intro hword
  have hi := rowInstr_encode h
  rw [hword, hbeq] at hi
  rw [← hi] at h
  cases h

/-- Settles O5: the encoded word has the fields of the instruction's row and its operands, and a row's fields decide
what a word decodes to. NOP's row asks nothing, so its one word is decoded by evaluation. -/
theorem decodingTheEncodedWordGivesTheInstruction : Obligations.DecodingTheEncodedWordGivesTheInstruction := by
  intro i hi
  by_cases hnop : kindOf i = .nop
  · cases i <;> cases hnop
    rfl
  · rw [decode_of_rowFields (rowFields_encode i) hnop (encode_beq_ne_haltWord hi), rowInstr_encode hi]

/-- Settles O6: the decoded instruction is its row's, which `encode_rowInstr` takes back to the word. -/
theorem encodingTheDecodedWordGivesTheWord : Obligations.EncodingTheDecodedWordGivesTheWord := by
  intro w hnop hjalr
  obtain ⟨hfields, hdecode⟩ := decode_follows_row w
  have hkind : kindOf (decode w) ≠ .nop := by
    intro hk
    rw [hk] at hdecode
    exact hnop hdecode
  rw [hdecode]
  exact encode_rowInstr hfields hkind hjalr

/-- Settles O7: assembled offsets are even, and the one word that would be the sentinel's beq decodes to HALT. -/
theorem decodedInstructionsAreWellFormed : Obligations.DecodedInstructionsAreWellFormed := by
  intro w
  obtain ⟨hfields, hdecode⟩ := decode_follows_row w
  rw [hdecode]
  cases hk : kindOf (decode w)
  case beq =>
    rw [hk] at hfields
    have hnot : isSentinelBeq (rs1Of w) (rs2Of w) (immBOf w) = false := by
      rw [Bool.eq_false_iff]
      intro hzero
      rw [eq_haltWord_of_isSentinelBeq hfields hzero] at hk
      cases hk
    simp [rowInstr, Instr.wellFormed, immBOf_even, hnot]
  case bne => exact immBOf_even w
  case jal => exact immJOf_even w
  all_goals rfl

end Sys2Proof
end

