-- ==== Sys2Proof/Proofs/Immediates.lean ====
section
/-! The immediates: where their bits come from, the range and parity of their sign extension, and which one the decoder
block outputs (30_encoding.md R63 to R66, R75). -/

namespace Sys2Proof

theorem sext_toInt {n : Nat} (v : BitVec n) (hn : n ≤ 32) : (sext v).toInt = v.toInt :=
  BitVec.toInt_signExtend_of_le hn

/-- A field whose bit 0 is 0 stands for an even number, signed too: its sign weighs a power of 2. -/
theorem toInt_even_of_getLsbD_zero {n : Nat} {v : BitVec (n + 1)} (h : v.getLsbD 0 = false) : v.toInt % 2 = 0 := by
  have heven : v.toNat % 2 = 0 := by simpa [BitVec.getLsbD] using h
  rw [BitVec.toInt_eq_msb_cond, pow_succ]
  split <;> omega

/-- The immediate port of a word is the one its decoded kind's row takes from it. -/
theorem decoderPorts_imm {w : Word} {k : Kind} (h : kindOf (decode w) = k) :
    (decoderPorts w).imm = immediateOf (rowInstr w k) := by
  rw [← h]
  exact congrArg immediateOf (decode_follows_row w).2

theorem decoderPorts_imm_of_mem {w v : Word} {ks : List Kind} (hks : ∀ k ∈ ks, immediateOf (rowInstr w k) = v)
    (h : kindOf (decode w) ∈ ks) : (decoderPorts w).imm = v :=
  (decoderPorts_imm rfl).trans (hks _ h)

theorem immIOf_bits (w : Word) {i : Nat} (hi : i < 12) : (immIOf w).getLsbD i = w.getLsbD (20 + i) := by
  simp [immIOf, hi]

theorem immSOf_bits (w : Word) :
    (∀ i, i < 7 → (immSOf w).getLsbD (5 + i) = w.getLsbD (25 + i)) ∧
    (∀ i, i < 5 → (immSOf w).getLsbD i = w.getLsbD (7 + i)) := by
  constructor <;> intro i hi <;>
    simp only [immSOf, BitVec.getLsbD_cast, BitVec.getLsbD_append, BitVec.getLsbD_extractLsb'] <;>
    interval_cases i <;> simp

theorem immBOf_bits (w : Word) :
    (immBOf w).getLsbD 12 = w.getLsbD 31 ∧ (immBOf w).getLsbD 11 = w.getLsbD 7 ∧
    (∀ i, i < 6 → (immBOf w).getLsbD (5 + i) = w.getLsbD (25 + i)) ∧
    (∀ i, i < 4 → (immBOf w).getLsbD (1 + i) = w.getLsbD (8 + i)) := by
  simp only [immBOf, BitVec.getLsbD_cast, BitVec.getLsbD_append, BitVec.getLsbD_extractLsb']
  refine ⟨by simp, by simp, fun i hi => ?_, fun i hi => ?_⟩ <;> interval_cases i <;> simp

theorem immJOf_bits (w : Word) :
    (immJOf w).getLsbD 20 = w.getLsbD 31 ∧ (∀ i, i < 8 → (immJOf w).getLsbD (12 + i) = w.getLsbD (12 + i)) ∧
    (immJOf w).getLsbD 11 = w.getLsbD 20 ∧
    (∀ i, i < 10 → (immJOf w).getLsbD (1 + i) = w.getLsbD (21 + i)) := by
  simp only [immJOf, BitVec.getLsbD_cast, BitVec.getLsbD_append, BitVec.getLsbD_extractLsb']
  refine ⟨by simp, fun i hi => ?_, by simp, fun i hi => ?_⟩ <;> interval_cases i <;> simp

/-- The range of a sign-extended 12-bit immediate (30_encoding.md R63, R64). -/
theorem sext_range_twelve (v : BitVec 12) : -2048 ≤ (sext v).toInt ∧ (sext v).toInt ≤ 2047 := by
  rw [sext_toInt v (by decide)]
  exact ⟨v.le_toInt, BitVec.toInt_le⟩

/-- An offset with bit 0 clear is even, so the upper end of its range is 2 below the next power of 2. -/
theorem sext_range_even {n : Nat} {v : BitVec (n + 1)} (hn : n + 1 ≤ 32) (h : v.getLsbD 0 = false) :
    -2 ^ n ≤ (sext v).toInt ∧ (sext v).toInt ≤ 2 ^ n - 1 ∧ (sext v).toInt % 2 = 0 := by
  rw [sext_toInt v hn]
  exact ⟨v.le_toInt, BitVec.toInt_le, toInt_even_of_getLsbD_zero h⟩

/-- Settles O2: one lemma for the bits of each format, `sext_range_twelve` or `sext_range_even` for the range, and
`decoderPorts_imm` for the port. -/
theorem immediatesAreAssembledFromTheirBits : Obligations.ImmediatesAreAssembledFromTheirBits := by
  intro w
  refine ⟨?_, ?_, ?_, ?_, decoderPorts_imm_of_mem (by simp [rowInstr, immediateOf])⟩
  · obtain ⟨hlow, hhigh⟩ := sext_range_twelve (immIOf w)
    exact ⟨fun _ hi => immIOf_bits w hi, hlow, hhigh, sext_toInt _ (by decide),
      decoderPorts_imm_of_mem (by simp [rowInstr, immediateOf])⟩
  · obtain ⟨hupper, hlower⟩ := immSOf_bits w
    obtain ⟨hlow, hhigh⟩ := sext_range_twelve (immSOf w)
    exact ⟨hupper, hlower, hlow, hhigh, sext_toInt _ (by decide), decoderPorts_imm⟩
  · obtain ⟨h12, h11, hupper, hlower⟩ := immBOf_bits w
    obtain ⟨hlow, hhigh, heven⟩ := sext_range_even (by decide) (immBOf_getLsbD_zero w)
    exact ⟨h12, h11, hupper, hlower, immBOf_getLsbD_zero w, hlow, by omega, heven, sext_toInt _ (by decide),
      decoderPorts_imm_of_mem (by simp [rowInstr, immediateOf])⟩
  · obtain ⟨h20, hupper, h11, hlower⟩ := immJOf_bits w
    obtain ⟨hlow, hhigh, heven⟩ := sext_range_even (by decide) (immJOf_getLsbD_zero w)
    exact ⟨h20, hupper, h11, hlower, immJOf_getLsbD_zero w, hlow, by omega, heven, sext_toInt _ (by decide),
      decoderPorts_imm⟩

end Sys2Proof
end

