-- ==== Sys2Proof/Proofs/PcMoves.lean ====
section
/-! Instructions that only move the pc or link and jump, their targets as arithmetic (42_control_transfer.md R150 to
R153), and the beq that stays where it is (30_encoding.md R72). -/

open Sys2Proof.Claims

namespace Sys2Proof.Machine

/-- An instruction whose whole effect is a new pc. -/
theorem onlyMovesPc_of_setPc {i : Instr} {s : State} {p p' : Word} (h : exec i s = .next (s.setPc p)) (hp : p = p') :
    OnlyMovesPc i s p' :=
  ⟨_, h, fun _ => rfl, hp, fun _ => rfl, rfl, rfl, rfl, rfl, rfl⟩

/-- An instruction that writes a register and jumps. -/
theorem computes_of_link {i : Instr} {s : State} {rd : RegIdx} {v p p' : Word}
    (h : exec i s = .next ((s.writeReg rd v).setPc p)) (hp : p = p') : Computes i s rd v p' :=
  ⟨_, h, fun r => readReg_writeReg s rd r v, hp, fun _ => rfl, rfl, rfl, rfl, rfl, rfl⟩

theorem branchTarget_eq_ofInt (s : State) (imm : BitVec 13) :
    branchTarget s imm = BitVec.ofInt 32 (s.pc.toNat + imm.toInt) :=
  add_sext_eq_ofInt _ _

theorem jalTarget_eq_ofInt (s : State) (imm : BitVec 21) :
    jalTarget s imm = BitVec.ofInt 32 (s.pc.toNat + imm.toInt) :=
  add_sext_eq_ofInt _ _

/-- Clearing bit 0 of a word rounds it down to an even number. -/
theorem clearBitZero_eq_ofNat (a : Word) : a &&& 0xFFFFFFFE#32 = BitVec.ofNat 32 (a.toNat / 2 * 2) := by
  have hshift : a &&& 0xFFFFFFFE#32 = (a >>> 1) <<< 1 := by
    apply BitVec.eq_of_getLsbD_eq
    intro i hi
    interval_cases i <;> simp
  apply BitVec.eq_of_toNat_eq
  rw [hshift, BitVec.toNat_shiftLeft, BitVec.toNat_ushiftRight, Nat.shiftRight_eq_div_pow, Nat.shiftLeft_eq,
    BitVec.toNat_ofNat]

theorem jalrTarget_eq_ofNat (s : State) (rs1 : RegIdx) (imm : BitVec 12) :
    jalrTarget s rs1 imm = BitVec.ofNat 32 ((s.readReg rs1 + sext imm).toNat / 2 * 2) :=
  clearBitZero_eq_ofNat _

/-- Settles O9: the fields are beq's and the word is not the sentinel's, so beq's row decodes it; taken, it adds an
offset of 0 to the pc. -/
theorem onlyTheReservedZeroOffsetBeqHalts : Obligations.OnlyTheReservedZeroOffsetBeqHalts := by
  obtain ⟨hopcode, hfunct3, hrs1, hrs2, himm⟩ := fields_haltWord
  refine ⟨⟨hopcode, hfunct3, hrs1, hrs2, himm, (decode_eq_halt_iff _).2 rfl⟩, ?_⟩
  intro w s hop hf3 hzero hne
  have hdecode : decode w = .beq (rs1Of w) (rs2Of w) 0#13 := by
    rw [decode_of_rowFields (k := .beq) ⟨hop, hf3⟩ nofun fun _ => hne, rowInstr, hzero]
  rw [hdecode]
  refine ⟨rfl, fun hequal => onlyMovesPc_of_setPc rfl ?_⟩
  rw [if_pos hequal]
  exact BitVec.add_zero s.pc

end Sys2Proof.Machine
end

