-- ==== Sys2Proof/Proofs/PseudoInstructions.lean ====
section
/-! The results the pseudo-instructions' expansions compute, each as its name says it (30_encoding.md R77; log 13). -/

open Sys2Proof.Claims

namespace Sys2Proof.Machine

/-- `computes_of_finishWith`, with the result in the form a statement writes it. -/
theorem computes_of_result {i : Instr} {s : State} {rd : RegIdx} {v v' : Word}
    (h : exec i s = .next (s.finishWith rd v)) (hv : v = v') : Computes i s rd v' (s.pc + 4#32) :=
  hv ▸ computes_of_finishWith h

theorem truthWord_decide (p : Prop) [Decidable p] : truthWord (decide p) = if p then 1#32 else 0#32 := by
  rw [truthWord]
  exact if_congr decide_eq_true_iff rfl rfl

theorem add_sext_zero (a : Word) : a + sext 0#12 = a := BitVec.add_zero a

/-- `li`: x0 plus the signed immediate. -/
theorem readReg_zero_add_sext (s : State) (imm : BitVec 12) :
    s.readReg 0#5 + sext imm = BitVec.ofInt 32 imm.toInt := by
  rw [readReg_zero, BitVec.zero_add]
  rfl

/-- `neg`: x0 minus the register. -/
theorem readReg_zero_sub (s : State) (a : Word) : s.readReg 0#5 - a = BitVec.ofInt 32 (-a.toInt) := by
  rw [readReg_zero, BitVec.zero_sub, BitVec.ofInt_neg, BitVec.ofInt_toInt]

/-- `seqz`: only 0 is below 1 unsigned. -/
theorem lessUnsigned_sext_one (a : Word) :
    truthWord (lessUnsigned a (sext 1#12)) = if a = 0#32 then 1#32 else 0#32 := by
  rw [lessUnsigned, truthWord_decide]
  refine if_congr ?_ rfl rfl
  rw [← BitVec.toNat_inj]
  exact Nat.lt_one_iff

/-- `sltz`: the register is below x0, signed. -/
theorem lessSigned_readReg_zero (s : State) (a : Word) :
    truthWord (lessSigned a (s.readReg 0#5)) = if a.toInt < 0 then 1#32 else 0#32 := by
  rw [readReg_zero, lessSigned, BitVec.toInt_zero, truthWord_decide]

/-- `sgtz`: x0 is below the register, signed. -/
theorem readReg_zero_lessSigned (s : State) (a : Word) :
    truthWord (lessSigned (s.readReg 0#5) a) = if 0 < a.toInt then 1#32 else 0#32 := by
  rw [readReg_zero, lessSigned, BitVec.toInt_zero, truthWord_decide]

/-- `jr`, `jalr` and `ret`: a jump to the register with bit 0 cleared. -/
theorem jalrTarget_zero (s : State) (rs : RegIdx) :
    jalrTarget s rs 0#12 = BitVec.ofNat 32 ((s.readReg rs).toNat / 2 * 2) := by
  rw [jalrTarget_eq_ofNat, add_sext_zero]

theorem beqz_onlyMovesPc (s : State) (rs : RegIdx) (off : BitVec 13) : OnlyMovesPc (expandPseudo (.beqz rs off)) s
    (if s.readReg rs = 0#32 then BitVec.ofInt 32 (s.pc.toNat + off.toInt) else s.pc + 4#32) := by
  refine onlyMovesPc_of_setPc rfl ?_
  rw [readReg_zero, branchTarget_eq_ofInt]
  rfl

theorem bnez_onlyMovesPc (s : State) (rs : RegIdx) (off : BitVec 13) : OnlyMovesPc (expandPseudo (.bnez rs off)) s
    (if s.readReg rs = 0#32 then s.pc + 4#32 else BitVec.ofInt 32 (s.pc.toNat + off.toInt)) := by
  refine onlyMovesPc_of_setPc rfl ?_
  rw [readReg_zero, branchTarget_eq_ofInt, ite_not]
  rfl

/-- A jalr that links x0 and has no offset: `jr` and `ret`. -/
theorem jalr_zero_onlyMovesPc (s : State) (rs : RegIdx) :
    OnlyMovesPc (.jalr 0#5 rs 0#12) s (BitVec.ofNat 32 ((s.readReg rs).toNat / 2 * 2)) :=
  onlyMovesPc_of_setPc (congrArg Host.Outcome.next (writeReg_zero_setPc s _ _)) (jalrTarget_zero s rs)

/-- Settles O33: each expansion ends in `finishWith`, in `setPc` or in both a link and `setPc`, and its result or target
is the one named above. -/
theorem pseudoInstructionsDoWhatTheySay : Obligations.PseudoInstructionsDoWhatTheySay := by
  intro s rd rs imm off joff
  exact ⟨onlyMovesPc_of_setPc (congrArg Host.Outcome.next (finishWith_zero s _)) rfl,
    computes_of_result rfl (add_sext_zero _),
    computes_of_result rfl (readReg_zero_add_sext s imm),
    computes_of_result rfl (readReg_zero_sub s _),
    computes_of_result rfl (lessUnsigned_sext_one _),
    computes_of_result rfl (lessSigned_readReg_zero s _),
    computes_of_result rfl (readReg_zero_lessSigned s _),
    beqz_onlyMovesPc s rs off,
    bnez_onlyMovesPc s rs off,
    onlyMovesPc_of_setPc (congrArg Host.Outcome.next (writeReg_zero_setPc s _ _)) (jalTarget_eq_ofInt s joff),
    computes_of_link rfl (jalTarget_eq_ofInt s joff),
    jalr_zero_onlyMovesPc s rs,
    computes_of_link rfl (jalrTarget_zero s rs),
    jalr_zero_onlyMovesPc s 1#5⟩

end Sys2Proof.Machine
end

