-- ==== Sys2Proof/Proofs/ExecutionCycle.lean ====
section
/-! One step of a RUNNING block: the three ends before a fetch, the fetched sentinel, and the executed instruction with
what it may write (40_execution_cycle.md R102 to R108). -/

open Sys2Proof.Claims

namespace Sys2Proof.Machine

theorem pcMisaligned_eq_true_iff (s : State) : s.pcMisaligned = true ↔ s.pc.toNat % 4 ≠ 0 := by
  rw [pcMisaligned_eq, decide_eq_true_iff]

theorem pcMisaligned_eq_false_iff (s : State) : s.pcMisaligned = false ↔ s.pc.toNat % 4 = 0 := by
  rw [pcMisaligned_eq, decide_eq_false_iff_not, not_not]

/-- Nothing is fetched from a pc past the end of the program (40_execution_cycle.md R103). -/
theorem fetchWord_eq_none_iff (s : State) : s.fetchWord = none ↔ s.imem.length ≤ s.pc.toNat / 4 :=
  List.getElem?_eq_none_iff

/-- A budget that the fetches have reached is spent (40_execution_cycle.md R104). -/
theorem budgetSpent_of_le {s : State} {b : Nat} (hb : s.stepBudget = some b) (hle : b ≤ s.steps) :
    s.budgetSpent = true := by
  rw [State.budgetSpent, hb]
  exact decide_eq_true hle

/-- The step of the fetched sentinel, as `step_of_fetches` is that of any other word. -/
theorem step_of_fetches_halt {s : State} {w : Word} (hf : Fetches s w) (hd : decode w = .halt) :
    step s = .next (s.countFetch.emit.enter .haltedSentinel) := by
  obtain ⟨hr, hm, hw, hb⟩ := (fetches_iff s w).1 hf
  rw [step_of_fetched hr hm hw hb, runFetched_halt hd]

/-- A step that stays RUNNING fetched a word, executed its instruction and retired it. -/
theorem step_stays_running {s t : State} (h : step s = .next t) (ht : t.status = .running) :
    ∃ w u, Fetches s w ∧ decode w ≠ .halt ∧ exec (decode w) s.countFetch = .next u ∧ t = u.retire := by
  obtain ⟨hr, ⟨-, rfl⟩ | ⟨-, -, rfl⟩ | ⟨-, -, -, rfl⟩ | ⟨w, hm, hf, hb, ⟨-, rfl⟩ | ⟨hd, u, hu, rfl⟩⟩⟩ := step_cases h
  case inr.inr.inr.inr => exact ⟨w, u, (fetches_iff s w).2 ⟨hr, hm, hf, hb⟩, hd, hu, rfl⟩
  all_goals cases ht

/-- No instruction changes a cell but the one at its store key (20_memory.md R40, R47). -/
theorem exec_loadWord_of_not_storeKey {i : Instr} {s t : State} {a : Word} (hwf : s.mem.wf)
    (h : exec i s = .next t) (ha : StoreKeyOf i s ≠ some a) : t.loadWord a = s.loadWord a := by
  obtain ⟨-, rfl⟩ | ⟨rs1, rs2, imm, rfl, rfl⟩ | ⟨-, _, _, _, rfl⟩ | ⟨-, _, rfl⟩ := exec_cases h
  case inr.inl =>
    rw [loadWord_advance, loadWord_storeWord hwf]
    exact if_neg fun e => ha (congrArg some e.symm)
  all_goals rfl

/-- Only sw stores, and sw has no destination register (10_state.md R23; 20_memory.md R47). -/
theorem destOf_or_storeKeyOf_eq_none (i : Instr) (s : State) : DestOf i = none ∨ StoreKeyOf i s = none := by
  cases i
  case sw => exact .inl rfl
  all_goals exact .inr rfl

/-- The store key is computed from registers alone, which counting a fetch leaves. -/
theorem storeKeyOf_countFetch (i : Instr) (s : State) : StoreKeyOf i s.countFetch = StoreKeyOf i s := by
  cases i <;> rfl

/-- The next pc is computed from the registers and the pc, which counting a fetch leaves. -/
theorem nextPcOf_countFetch (i : Instr) (s : State) : NextPcOf i s.countFetch = NextPcOf i s := by
  cases i <;> rfl

/-- Settles O30: only the sentinel's word decodes to HALT, whose meaning emits the snapshot of the state it ends in. -/
theorem haltEmitsOneRecordAndStops : Obligations.HaltEmitsOneRecordAndStops :=
  ⟨decode_eq_halt_iff, fun s => ⟨s.emit.enter .haltedSentinel, rfl, rfl,
    ⟨s.snapshot, rfl, rfl, read_zeroForced s.regs⟩, fun _ => rfl, fun _ => rfl, rfl, rfl, rfl, rfl⟩⟩

/-- Settles O34: each check read as arithmetic, with the step lemma for its end. -/
theorem stepChecksComeInOrder : Obligations.StepChecksComeInOrder := by
  intro s hr
  refine ⟨fun hm => ?_, fun hm hend => ?_, fun b hm hlt hb hle => ?_⟩
  · exact step_of_misaligned hr ((pcMisaligned_eq_true_iff s).2 hm)
  · exact step_of_pastEnd hr ((pcMisaligned_eq_false_iff s).2 hm) ((fetchWord_eq_none_iff s).2 hend)
  · exact step_of_budgetSpent hr ((pcMisaligned_eq_false_iff s).2 hm) (List.getElem?_eq_getElem hlt)
      (budgetSpent_of_le hb hle)

/-- Settles O35: the sentinel's step is exec of HALT; any other instruction is executed, keeps the block RUNNING by
`exec_frame`, and is retired. -/
theorem stepRunsTheDecodedInstruction : Obligations.StepRunsTheDecodedInstruction := by
  refine fun s w hf => ⟨step_of_fetches_halt hf, fun hd => ?_⟩
  obtain ⟨u, hu⟩ := exec_total (decode w) s.countFetch
  obtain ⟨hstatus, -⟩ := exec_frame hd hu
  refine ⟨u, hu, ?_, hstatus.trans hf.1⟩
  rw [step_of_fetches hf hd hu, retire_eq]
  rfl

/-- Settles O36: the fetch is counted before the instruction, which leaves the counter; the sentinel's step is
`step_of_fetches_halt`. -/
theorem fetchedSentinelEndsTheRun : Obligations.FetchedSentinelEndsTheRun := by
  refine ⟨fun s w hf => ?_, fun s hf => step_of_fetches_halt hf rfl⟩
  by_cases hd : decode w = .halt
  · exact ⟨_, step_of_fetches_halt hf hd, rfl⟩
  · obtain ⟨u, hu⟩ := exec_total (decode w) s.countFetch
    obtain ⟨-, hsteps, -⟩ := exec_frame hd hu
    exact ⟨_, step_of_fetches hf hd hu, hsteps⟩

/-- Settles O40: the step executed one instruction, and one lemma says what an instruction leaves of the registers, one
of the cells, and one where it sends the pc. -/
theorem oneRegisterOrOneCellAndThePc : Obligations.OneRegisterOrOneCellAndThePc := by
  intro s t hwf h ht
  obtain ⟨w, u, hf, -, hu, rfl⟩ := step_stays_running h ht
  refine ⟨w, hf, fun r hr => ?_, fun a ha => ?_, destOf_or_storeKeyOf_eq_none _ s, ?_⟩
  · rw [readReg_retire, exec_readReg_of_not_dest hu hr, readReg_countFetch]
  · rw [← storeKeyOf_countFetch] at ha
    exact (loadWord_retire u a).trans (exec_loadWord_of_not_storeKey (s := s.countFetch) hwf hu ha)
  · rw [retire_pc, exec_pc hu, nextPcOf_countFetch]

end Sys2Proof.Machine
end

