-- ==== Sys2Proof/Proofs/Runs.lean ====
section
/-! Runs of any length: what every step keeps, every state of a run keeps; a budget bounds the run, the pc is aligned
until the pc fault, and straight-line code reaches its end (40_execution_cycle.md R103, R104, R112, R113(b)). -/

open Sys2Proof.Claims

namespace Sys2Proof.Machine

/-- What every step keeps holds along a run. -/
theorem runFor_keeps {P : State → Prop} (hstep : ∀ s t, P s → step s = .next t → P t) {s : State} (hs : P s)
    (n : Nat) : P (runFor n s) := by
  induction n generalizing s with
  | zero => exact hs
  | succ n ih =>
    by_cases hr : s.status = .running
    · obtain ⟨t, ht⟩ := step_total hr
      rw [runFor_succ_of_step ht]
      exact ih (hstep s t hs ht)
    · rwa [runFor_of_terminal hr]

theorem State.Inv.runFor {s : State} (h : s.Inv) (n : Nat) : (Machine.runFor n s).Inv :=
  runFor_keeps stepsKeepTheInvariant h n

theorem runFor_add (m n : Nat) (s : State) : runFor (m + n) s = runFor n (runFor m s) := by
  induction m generalizing s with
  | zero => rw [Nat.zero_add, runFor]
  | succ m ih =>
    by_cases hr : s.status = .running
    · obtain ⟨t, ht⟩ := step_total hr
      rw [Nat.succ_add, runFor_succ_of_step ht, runFor_succ_of_step ht, ih]
    · simp only [runFor_of_terminal hr]

/-- A run that is RUNNING has been so all along: no step leaves a terminal status (10_state.md R25). -/
theorem running_of_running_later {m n : Nat} (hmn : m ≤ n) {s : State} (hn : (runFor n s).status = .running) :
    (runFor m s).status = .running := by
  by_contra hm
  rw [← Nat.add_sub_of_le hmn, runFor_add, runFor_of_terminal hm] at hn
  exact hm hn

/-- A run that is RUNNING has fetched a word in each of its steps (10_state.md R26). -/
theorem steps_of_running {n : Nat} {s : State} (hn : (runFor n s).status = .running) :
    (runFor n s).steps = s.steps + n := by
  induction n with
  | zero => rfl
  | succ n ih =>
    have hr := running_of_running_later (Nat.le_succ n) hn
    obtain ⟨t, ht⟩ := step_total hr
    rw [runFor_succ_last ht] at hn ⊢
    obtain ⟨_, hst, -, rfl⟩ | rfl | ⟨u, -, hsteps, -, rfl⟩ := step_outcomes ht
    · exact absurd hn hst
    · cases hn
    · rw [retire_steps, hsteps, ih hr, Nat.add_assoc]

/-! A budget. -/

/-- The budget is `b` and no more words than it allows have been fetched (40_execution_cycle.md R104). -/
def WithinBudget (b : Nat) (s : State) : Prop := s.stepBudget = some b ∧ s.steps ≤ b

theorem WithinBudget.step {b : Nat} {s t : State} (h : WithinBudget b s) (hst : Machine.step s = .next t) :
    WithinBudget b t := by
  obtain ⟨hb, hle⟩ := h
  obtain ⟨-, ⟨-, rfl⟩ | ⟨-, -, rfl⟩ | ⟨-, -, -, rfl⟩ | ⟨w, -, -, hspent, hexec⟩⟩ := step_cases hst
  case inr.inr.inr =>
    have hlt : s.steps < b := (budgetSpent_eq_false_iff s).1 hspent b hb
    obtain ⟨-, rfl⟩ | ⟨hd, u, hu, rfl⟩ := hexec
    · exact ⟨hb, hlt⟩
    · obtain ⟨-, hsteps, -, -, hbudget⟩ := exec_frame hd hu
      exact ⟨hbudget.trans hb, Nat.le_trans (Nat.le_of_eq hsteps) hlt⟩
  all_goals exact ⟨hb, hle⟩

/-- Settles O48: every step keeps `WithinBudget`, so a run still RUNNING after `b - s.steps + 1` steps would have
fetched one word too many. -/
theorem budgetBoundsEveryRun : Obligations.BudgetBoundsEveryRun := by
  intro s b hb hle
  have hwithin : ∀ n, WithinBudget b (runFor n s) := runFor_keeps (fun _ _ => WithinBudget.step) ⟨hb, hle⟩
  refine ⟨fun hr => ?_, fun n => (hwithin n).2⟩
  have hcount := steps_of_running hr
  have hbound := (hwithin (b - s.steps + 1)).2
  omega

/-! The pc fault. -/

/-- A terminal status other than the pc fault was entered at an aligned pc (40_execution_cycle.md R111). -/
theorem State.Inv.pc_aligned_of_terminal {s : State} (h : s.Inv) (hr : s.status ≠ .running)
    (hf : s.status ≠ .faultPcMisaligned) : s.pc.toNat % 4 = 0 := by
  have hwhy := h.explained
  rw [State.statusExplained] at hwhy
  rw [← pcMisaligned_eq_false_iff]
  cases hst : s.status <;> rw [hst] at hwhy hr hf
  case running => exact absurd rfl hr
  case faultPcMisaligned => exact absurd rfl hf
  all_goals exact hwhy.1

/-- At a misaligned pc a run's next step, if it takes one, enters the pc fault; so a run free of it is aligned one step
before. -/
theorem pc_aligned_of_freeOfPcFault {n : Nat} {s : State} (h : s.Inv) (hfree : FreeOfPcFault (n + 1) s) :
    (runFor n s).pc.toNat % 4 = 0 := by
  by_cases hr : (runFor n s).status = .running
  · by_contra hm
    have hstep := step_of_misaligned hr ((pcMisaligned_eq_true_iff _).2 hm)
    exact hfree (n + 1) (Nat.le_refl _) (by rw [runFor_succ_last hstep, enter_status])
  · exact (h.runFor n).pc_aligned_of_terminal hr (hfree n (Nat.le_succ n))

/-- The pc fault is entered only at a misaligned pc, and only the status changes (40_execution_cycle.md R102). -/
theorem step_enters_pcFault {s t : State} (h : step s = .next t) (ht : t.status = .faultPcMisaligned) :
    s.pc.toNat % 4 ≠ 0 ∧ t = s.enter .faultPcMisaligned := by
  obtain ⟨hr, ⟨hm, rfl⟩ | ⟨-, -, rfl⟩ | ⟨-, -, -, rfl⟩ | ⟨w, -, -, -, ⟨-, rfl⟩ | ⟨hd, u, hu, rfl⟩⟩⟩ := step_cases h
  case inl => exact ⟨(pcMisaligned_eq_true_iff s).1 hm, rfl⟩
  case inr.inr.inr.inr =>
    have hrun : u.status = .running := (exec_frame hd hu).1.trans hr
    cases hrun.symm.trans ht
  all_goals cases ht

/-- Settles O49: a run that is RUNNING after n steps is free of the pc fault up to there, so
`pc_aligned_of_freeOfPcFault` serves both parts. -/
theorem pcStaysAlignedWithoutThePcFault : Obligations.PcStaysAlignedWithoutThePcFault := by
  intro s t p b n hboot
  have hinv : t.Inv := bootedStatesMeetTheInvariant.2 s t p b hboot
  refine ⟨pc_aligned_of_freeOfPcFault hinv, fun hfault hr => ?_⟩
  obtain ⟨u, hu⟩ := step_total hr
  rw [runFor_succ_last hu] at hfault ⊢
  obtain ⟨hmisaligned, rfl⟩ := step_enters_pcFault hu hfault
  refine ⟨rfl, hmisaligned, fun k hk => pc_aligned_of_freeOfPcFault hinv fun j hj hj' => ?_⟩
  cases hj'.symm.trans (running_of_running_later (Nat.le_trans hj hk) hr)

/-! Straight-line code. -/

/-- A program of fewer than 2^30 words is left behind by a straight line through it: its end is below 2^32
(40_execution_cycle.md R103). -/
theorem StraightLineAt.step_at_end {p : List Word} {b : Option Nat} {s : State}
    (h : StraightLineAt p b p.length s) (hp : p.length < 2 ^ 30) :
    s.pc.toNat = 4 * p.length ∧ Machine.step s = .next (s.enter .haltedEnd) := by
  have hpc : s.pc.toNat = 4 * p.length := by
    rw [h.pc, BitVec.toNat_ofNat]
    omega
  refine ⟨hpc, step_of_pastEnd h.running ?_ ?_⟩
  · rw [pcMisaligned_eq_false_iff, hpc, Nat.mul_mod_right]
  · rw [fetchWord_eq_none_iff, h.program, hpc, Nat.mul_div_cancel_left _ (by decide)]

/-- Settles O50: `straightLineAt_runFor` runs the N words, the next step finds the end, and the trace has a record for
each fetch by the invariant. -/
theorem straightLineProgramsRunToTheirEnd : Obligations.StraightLineProgramsRunToTheirEnd := by
  intro s t p b hlen hl hb hboot
  have hinv : t.Inv := bootedStatesMeetTheInvariant.2 s t p b hboot
  obtain ⟨-, rfl⟩ := boot_eq_some_iff.1 hboot
  have hat := straightLineAt_runFor (Nat.le_of_lt hlen) hl hb (Nat.le_refl p.length)
  obtain ⟨hpc, hend⟩ := hat.step_at_end hlen
  rw [runFor_succ_last hend]
  exact ⟨rfl, hat.fetched, (hinv.runFor p.length).oneRecordPerFetch.trans hat.fetched, hpc⟩

end Sys2Proof.Machine
end

