-- ==== Sys2Proof/Proofs/ProgramText.lean ====
section
/-! The program as text: a line read as bits from the most significant on, and a text read line by line
(40_execution_cycle.md R101; log 12). -/

namespace Sys2Proof.Machine

/-- A partial function maps a list whole exactly when it answers at every entry. -/
theorem mapM_eq_some_iff {α β : Type} (f : α → Option β) (xs : List α) (ys : List β) :
    xs.mapM f = some ys ↔ xs.map f = ys.map some := by
  induction xs generalizing ys with
  | nil => cases ys <;> simp
  | cons x xs ih =>
    rw [List.mapM_cons]
    cases ys <;> simp [Option.bind_eq_some_iff, ih]

theorem wordOfBits_concat (bits : List Bool) (b : Bool) :
    wordOfBits (bits ++ [b]) = (wordOfBits bits <<< 1) ||| (if b then 1#32 else 0#32) := by
  rw [wordOfBits, List.foldl_append]
  rfl

/-- The last bit of a list is bit 0 of its word, the one before it bit 1, and so on. -/
theorem wordOfBits_getLsbD (bits : List Bool) {i : Nat} (hi : i < 32) :
    (wordOfBits bits).getLsbD i = bits.reverse[i]?.getD false := by
  induction bits using List.reverseRecOn generalizing i with
  | nil => simp [wordOfBits]
  | append_singleton bits b ih =>
    rw [wordOfBits_concat, List.reverse_concat, BitVec.getLsbD_or, BitVec.getLsbD_shiftLeft]
    cases i with
    | zero => cases b <;> simp
    | succ i =>
      have hshifted := ih (Nat.lt_of_succ_lt hi)
      cases b <;> simp [hshifted, hi]

/-- Whether a character is 1: the bit of a character 0 or 1, by `bitOfChar_eq_some`. -/
def isOne (c : Char) : Bool := c == '1'

theorem bitOfChar_eq_some {c : Char} (h : c = '0' ∨ c = '1') : bitOfChar c = some (isOne c) := by
  obtain rfl | rfl := h <;> rfl

/-- A line of 32 characters 0 and 1 gives the word of its bits. -/
theorem wordOfLine_eq_some {cs : List Char} (hlen : cs.length = 32) (hcs : ∀ c ∈ cs, c = '0' ∨ c = '1') :
    wordOfLine cs = some (wordOfBits (cs.map isOne)) := by
  have hbits : cs.mapM bitOfChar = some (cs.map isOne) := by
    rw [mapM_eq_some_iff, List.map_map]
    exact List.map_congr_left fun c hc => bitOfChar_eq_some (hcs c hc)
  rw [wordOfLine, if_pos hlen, hbits]
  rfl

/-- A line that has a character 0 or 1 is not blank. -/
theorem blankLine_eq_false {cs : List Char} {c : Char} (hmem : c ∈ cs) (hc : c = '0' ∨ c = '1') :
    blankLine cs = false := by
  have hspace : c.isWhitespace = false := by obtain rfl | rfl := hc <;> rfl
  exact List.all_eq_false.2 ⟨c, hmem, by simp [hspace]⟩

/-- Settles O52: `wordOfBits_getLsbD` reads the line from its end, where character k of 32 stands at place 31 - k; a
text is the `mapM` of its lines that are not blank. -/
theorem programTextIsMostSignificantBitFirst : Obligations.ProgramTextIsMostSignificantBitFirst := by
  refine ⟨fun cs hlen hcs => ⟨?_, _, wordOfLine_eq_some hlen hcs, fun k hk => ?_⟩, rfl, fun lines words =>
    mapM_eq_some_iff ..⟩
  · have hfirst : cs[0] ∈ cs := List.getElem_mem (by omega)
    exact blankLine_eq_false hfirst (hcs _ hfirst)
  · have hlt : k < cs.length := by omega
    have hrev : 31 - (31 - k) = k := by omega
    rw [wordOfBits_getLsbD _ (by omega), List.getElem?_reverse (by rw [List.length_map]; omega), List.length_map, hlen,
      List.getElem?_map]
    simp [hrev, List.getElem?_eq_getElem hlt, isOne]

end Sys2Proof.Machine
end

