-- ==== Sys2Proof/Proofs/RowSelection.lean ====
section
/-! What the table decides for a word: under a row's mask, the row's instruction (30_encoding.md R69); with the fields
of no row, the default no-op (41_alu.md R139; 42_control_transfer.md R154; 43_load_store.md R172). -/

namespace Sys2Proof

/-- A word that matches a row under its mask decodes to the row's instruction; beq's row needs that the word is not the
sentinel, see `decode_of_rowFields`. -/
theorem decode_of_masked {w : Word} {k : Kind} (h : w &&& rowMask k = rowMatch k) (hnop : k ≠ .nop)
    (hbeq : k ≠ .beq) : decode w = rowInstr w k :=
  decode_of_rowFields ((matchesRow_iff w k).1 (beq_iff_eq.2 h)) hnop fun hk => absurd hk hbeq

/-- A word with the fields of no row but the default's decodes to NOP. -/
theorem decode_eq_nop_of_no_row {w : Word} (h : ∀ k, RowFields w k → k = .nop) : decode w = .nop := by
  obtain ⟨hfields, hdecode⟩ := decode_follows_row w
  rw [hdecode, h _ hfields]
  rfl

/-- Settles O10: the codes of each row, the sentinel's included, are listed under its opcode, so the word has the
fields of none and is a NOP, which advances the pc and does nothing else. -/
theorem unlistedFunctionCodesAreNoOps : Obligations.UnlistedFunctionCodesAreNoOps := by
  intro w s hunlisted
  have hnop : decode w = .nop := by
    refine decode_eq_nop_of_no_row fun k hrow => ?_
    cases k
    case nop => rfl
    case halt =>
      obtain rfl : w = haltWord := hrow
      revert hunlisted
      decide
    all_goals
      simp only [RowFields, opReg, opImm, opJalr, opLoad, opStore, opBranch, opJal] at hrow
      simp [hrow] at hunlisted
  rw [hnop]
  exact ⟨rfl, Machine.onlyMovesPc_of_setPc rfl rfl⟩

end Sys2Proof
end

