-- ==== Sys2Proof/Proofs/AluResults.lean ====
section
/-! The integer computational instructions (41_alu.md R130 to R138): the word each operation computes, as arithmetic on
the values of its operands. -/

namespace Sys2Proof.Machine

/-- add: the carry out of bit 31 is lost (41_alu.md R130). -/
theorem add_eq_ofNat (a b : Word) : a + b = BitVec.ofNat 32 ((a.toNat + b.toNat) % 2 ^ 32) := by
  rw [← BitVec.toNat_add, BitVec.ofNat_toNat, BitVec.setWidth_eq]

/-- sub: a borrow wraps (41_alu.md R131). -/
theorem sub_eq_ofInt (a b : Word) : a - b = BitVec.ofInt 32 ((a.toNat : Int) - (b.toNat : Int)) := by
  simp [Int.sub_eq_add_neg, BitVec.ofInt_add, BitVec.ofInt_neg, BitVec.sub_eq_add_neg]

/-- The low five bits are the remainder modulo 32 (41_alu.md R132, R134). -/
theorem shiftAmount_eq_mod (v : Word) : shiftAmount v = v.toNat % 32 := by
  rw [shiftAmount, BitVec.toNat_and]
  exact Nat.and_two_pow_sub_one_eq_mod v.toNat 5

/-- sll: bits shifted beyond bit 31 are lost (41_alu.md R132). -/
theorem shiftLeft_shiftAmount_eq_ofNat (a b : Word) :
    a <<< shiftAmount b = BitVec.ofNat 32 (a.toNat * 2 ^ (b.toNat % 32)) := by
  apply BitVec.eq_of_toNat_eq
  rw [shiftAmount_eq_mod, BitVec.toNat_shiftLeft, Nat.shiftLeft_eq, BitVec.toNat_ofNat]

/-- srl: zeros come in at bit 31 (41_alu.md R134). -/
theorem ushiftRight_shiftAmount_eq_ofNat (a b : Word) :
    a >>> shiftAmount b = BitVec.ofNat 32 (a.toNat / 2 ^ (b.toNat % 32)) := by
  rw [shiftAmount_eq_mod, ← Nat.shiftRight_eq_div_pow, ← BitVec.toNat_ushiftRight, BitVec.ofNat_toNat,
    BitVec.setWidth_eq]

/-- addi: both operands taken as signed (41_alu.md R137). -/
theorem add_sext_eq_ofInt_toInt {n : Nat} (a : Word) (imm : BitVec n) :
    a + sext imm = BitVec.ofInt 32 (a.toInt + imm.toInt) := by
  rw [BitVec.ofInt_add, BitVec.ofInt_toInt]
  rfl

/-- The unsigned value of a sign-extended immediate is the signed one modulo 2^32 (41_alu.md R138). -/
theorem sext_toNat_eq_emod {n : Nat} (imm : BitVec n) : ((sext imm).toNat : Int) = imm.toInt % 2 ^ 32 := by
  rw [sext, BitVec.signExtend, BitVec.toNat_ofInt]
  exact Int.toNat_of_nonneg (Int.emod_nonneg _ (by decide))

/-- sltiu: the immediate is sign-extended first and then compared as unsigned (41_alu.md R138). -/
theorem lessUnsigned_sext {n : Nat} (a : Word) (imm : BitVec n) :
    truthWord (lessUnsigned a (sext imm)) = if (a.toNat : Int) < imm.toInt % 2 ^ 32 then 1#32 else 0#32 := by
  rw [lessUnsigned, truthWord_decide, ← sext_toNat_eq_emod]
  exact if_congr Int.ofNat_lt.symm rfl rfl

/-- Settles O14: the table row by `decode_of_masked`, the sum by `add_eq_ofNat`. -/
theorem addWrapsModuloTwoToThe32 : Obligations.AddWrapsModuloTwoToThe32 :=
  ⟨fun _ hrow => decode_of_masked (k := .add) hrow nofun nofun,
    fun _ _ _ _ => computes_of_result rfl (add_eq_ofNat _ _)⟩

/-- Settles O15: the table row by `decode_of_masked`, the difference by `sub_eq_ofInt`. -/
theorem subWrapsOnBorrow : Obligations.SubWrapsOnBorrow :=
  ⟨fun _ hrow => decode_of_masked (k := .sub) hrow nofun nofun,
    fun _ _ _ _ => computes_of_result rfl (sub_eq_ofInt _ _)⟩

/-- Settles O16: the shift multiplies by a power of 2, by `shiftLeft_shiftAmount_eq_ofNat`. -/
theorem sllUsesTheLowFiveBits : Obligations.SllUsesTheLowFiveBits :=
  ⟨fun _ hrow => decode_of_masked (k := .sll) hrow nofun nofun,
    fun _ _ _ _ => computes_of_result rfl (shiftLeft_shiftAmount_eq_ofNat _ _)⟩

/-- Settles O17: `lessSigned` compares the signed values, and `truthWord_decide` gives the 1 or 0. -/
theorem sltComparesSigned : Obligations.SltComparesSigned :=
  ⟨fun _ hrow => decode_of_masked (k := .slt) hrow nofun nofun,
    fun _ _ _ _ => computes_of_result rfl (truthWord_decide _)⟩

/-- Settles O18: the shift divides by a power of 2, by `ushiftRight_shiftAmount_eq_ofNat`. -/
theorem srlShiftsInZeros : Obligations.SrlShiftsInZeros :=
  ⟨fun _ hrow => decode_of_masked (k := .srl) hrow nofun nofun,
    fun _ _ _ _ => computes_of_result rfl (ushiftRight_shiftAmount_eq_ofNat _ _)⟩

/-- Settles O19: the result is the bit vectors' own or, which the library gives bit by bit. -/
theorem orIsBitwise : Obligations.OrIsBitwise :=
  ⟨fun _ hrow => decode_of_masked (k := .or) hrow nofun nofun,
    fun _ _ _ _ => ⟨_, fun _ _ => BitVec.getLsbD_or, computes_of_finishWith rfl⟩⟩

/-- Settles O20: the result is the bit vectors' own and, which the library gives bit by bit. -/
theorem andIsBitwise : Obligations.AndIsBitwise :=
  ⟨fun _ hrow => decode_of_masked (k := .and) hrow nofun nofun,
    fun _ _ _ _ => ⟨_, fun _ _ => BitVec.getLsbD_and, computes_of_finishWith rfl⟩⟩

/-- Settles O21: the signed sum by `add_sext_eq_ofInt_toInt`. -/
theorem addiAddsTheSignedImmediate : Obligations.AddiAddsTheSignedImmediate :=
  ⟨fun _ hrow => decode_of_masked (k := .addi) hrow nofun nofun,
    fun _ _ _ _ => computes_of_result rfl (add_sext_eq_ofInt_toInt _ _)⟩

/-- Settles O22: the comparison by `lessUnsigned_sext`. -/
theorem sltiuComparesUnsigned : Obligations.SltiuComparesUnsigned :=
  ⟨fun _ hrow => decode_of_masked (k := .sltiu) hrow nofun nofun,
    fun _ _ _ _ => computes_of_result rfl (lessUnsigned_sext _ _)⟩

end Sys2Proof.Machine
end

