-- ==== Sys2Proof/Proofs/ControlTransfer.lean ====
section
/-! jalr, beq, bne and jal (42_control_transfer.md R150 to R153): the table row of each, where it sends the pc, and the
link. -/

namespace Sys2Proof.Machine

/-- An integer taken modulo 2^32 keeps its parity, so clearing bit 0 rounds the integer itself down to an even one. -/
theorem clearBitZero_ofInt (i : Int) : BitVec.ofInt 32 i &&& 0xFFFFFFFE#32 = BitVec.ofInt 32 (i - i % 2) := by
  rw [clearBitZero_eq_ofNat]
  apply BitVec.eq_of_toNat_eq
  rw [BitVec.toNat_ofNat, BitVec.toNat_ofInt, BitVec.toNat_ofInt]
  omega

/-- jalr's target, rounded down to an even number (42_control_transfer.md R150). -/
theorem jalrTarget_eq_ofInt (s : State) (rs1 : RegIdx) (imm : BitVec 12) :
    jalrTarget s rs1 imm =
      BitVec.ofInt 32 (((s.readReg rs1).toNat + imm.toInt) - ((s.readReg rs1).toNat + imm.toInt) % 2) := by
  rw [jalrTarget, add_sext_eq_ofInt, clearBitZero_ofInt]

/-- A word under beq's mask that is not the sentinel's decodes to beq (30_encoding.md R72); `decode_of_masked` is the
lemma for the other rows. -/
theorem decode_of_masked_beq {w : Word} (h : w &&& rowMask .beq = rowMatch .beq) (hne : w ≠ haltWord) :
    decode w = .beq (rs1Of w) (rs2Of w) (immBOf w) :=
  decode_of_rowFields (k := .beq) ((matchesRow_iff w .beq).1 (beq_iff_eq.2 h)) nofun fun _ => hne

/-- Settles O23: `jalrTarget_eq_ofInt` for the target; the link is written from the old pc before the jump. -/
theorem jalrClearsBitZeroAndLinks : Obligations.JalrClearsBitZeroAndLinks :=
  ⟨fun _ hrow => decode_of_masked (k := .jalr) hrow nofun nofun,
    fun s _ rs1 imm => computes_of_link rfl (jalrTarget_eq_ofInt s rs1 imm)⟩

/-- Settles O24: beq only sets the pc, to the branch target or to the next instruction as its comparison decides. -/
theorem beqBranchesWhenEqual : Obligations.BeqBranchesWhenEqual := by
  refine ⟨fun w hrow hne => decode_of_masked_beq hrow hne, fun s rs1 rs2 imm => ⟨fun heq => ?_, fun hne => ?_⟩⟩
  · exact onlyMovesPc_of_setPc rfl ((if_pos heq).trans (branchTarget_eq_ofInt s imm))
  · exact onlyMovesPc_of_setPc rfl (if_neg hne)

/-- Settles O25: bne only sets the pc, as beq does, with the comparison's two sides exchanged. -/
theorem bneBranchesWhenDifferent : Obligations.BneBranchesWhenDifferent := by
  refine ⟨fun w hrow => decode_of_masked (k := .bne) hrow nofun nofun,
    fun s rs1 rs2 imm => ⟨fun hne => ?_, fun heq => ?_⟩⟩
  · exact onlyMovesPc_of_setPc rfl ((if_pos hne).trans (branchTarget_eq_ofInt s imm))
  · exact onlyMovesPc_of_setPc rfl (if_neg (not_not.2 heq))

/-- Settles O26: `jalTarget_eq_ofInt` for the target; the link is written from the old pc before the jump. -/
theorem jalLinksAndJumpsRelative : Obligations.JalLinksAndJumpsRelative :=
  ⟨fun _ hrow => decode_of_masked (k := .jal) hrow nofun nofun,
    fun s _ imm => computes_of_link rfl (jalTarget_eq_ofInt s imm)⟩

end Sys2Proof.Machine
end

