-- ==== Sys2Proof/Proofs/MemoryAccess.lean ====
section
/-! lw and sw: the table row of each, its key as arithmetic, and what it leaves (20_memory.md R43, R44; 43_load_store.md
R170, R171). -/

namespace Sys2Proof.Machine

/-- The store's key is the sum modulo 2^32 less its remainder modulo 4, which wrapping keeps (20_memory.md R44). -/
theorem storeAddress_toNat_eq_emod (s : State) (rs1 : RegIdx) (imm : BitVec 12) :
    ((storeAddress s rs1 imm).toNat : Int) =
      ((s.readReg rs1).toNat + imm.toInt) % 2 ^ 32 - ((s.readReg rs1).toNat + imm.toInt) % 4 := by
  rw [storeAddress, masked_toNat, add_sext_eq_ofInt, BitVec.toNat_ofInt]
  omega

/-- Settles O27: the key by `loadAddress_eq_ofInt`; lw ends in `finishWith` with the cell there. -/
theorem lwReadsTheExactKey : Obligations.LwReadsTheExactKey :=
  ⟨fun _ hrow => decode_of_masked (k := .lw) hrow nofun nofun,
    fun s _ rs1 imm => ⟨loadAddress_eq_ofInt s rs1 imm, computes_of_finishWith rfl⟩⟩

/-- Settles O28: the key by `storeAddress_toNat_eq_emod`; in a canonical memory `loadWord_storeWord` gives every cell
after the store, and the rest of sw only advances the pc. -/
theorem swWritesTheMaskedKey : Obligations.SwWritesTheMaskedKey := by
  refine ⟨fun w hrow => decode_of_masked (k := .sw) hrow nofun nofun, fun s rs1 rs2 imm hwf => ?_⟩
  exact ⟨storeAddress_toNat_eq_emod s rs1 imm, _, rfl, fun a => loadWord_storeWord hwf _ a _, fun _ => rfl, rfl,
    rfl, rfl, rfl, rfl, rfl⟩

end Sys2Proof.Machine
end

