-- ==== Sys2Proof/Proofs/DefaultNoop.lean ====
section
/-! The default no-op, and that no word but the sentinel's stops the block (44_default_noop.md R190, R192). -/

open Sys2Proof.Claims

namespace Sys2Proof.Machine

/-- Only funct3 000 and 001 are listed under the branch opcode; every code above them is the default's
(42_control_transfer.md R154). -/
theorem decode_branch_eq_nop {w : Word} (hop : opcodeOf w = opBranch) (hf3 : 0b010#3 ≤ funct3Of w) :
    decode w = .nop := by
  have hunlisted : funct3Of w ∉ [0b000#3, 0b001#3] := by
    generalize funct3Of w = f at hf3
    revert f
    decide
  obtain ⟨hnop, -⟩ := unlistedFunctionCodesAreNoOps w .reset (.inr (.inr (.inr ⟨hop, hunlisted⟩)))
  exact hnop

/-- HALTED_SENTINEL is entered by the step that fetches the sentinel: the other ends have their own status, and any
other instruction stays RUNNING. -/
theorem fetches_haltWord_of_step {s t : State} (h : step s = .next t) (ht : t.status = .haltedSentinel) :
    Fetches s haltWord := by
  obtain ⟨hr, ⟨-, rfl⟩ | ⟨-, -, rfl⟩ | ⟨-, -, -, rfl⟩ | ⟨w, hm, hf, hb, ⟨hd, -⟩ | ⟨hd, u, hu, rfl⟩⟩⟩ := step_cases h
  case inr.inr.inr.inl =>
    obtain rfl := (decode_eq_halt_iff w).1 hd
    exact (fetches_iff s haltWord).2 ⟨hr, hm, hf, hb⟩
  case inr.inr.inr.inr =>
    obtain ⟨hstatus, -⟩ := exec_frame hd hu
    cases (hstatus.trans hr).symm.trans ht
  all_goals cases ht

/-- Settles O29: NOP only sets the pc, and the step that fetches it retires the advanced state. -/
theorem nopOnlyAdvancesThePc : Obligations.NopOnlyAdvancesThePc := by
  refine ⟨fun s => onlyMovesPc_of_setPc rfl rfl, fun s w hf hnop => ?_⟩
  have hne : decode w ≠ .halt := by
    rw [hnop]
    nofun
  have hexec : exec (decode w) s.countFetch = .next s.countFetch.advance := by
    rw [hnop]
    rfl
  rw [step_of_fetches hf hne hexec, retire_eq]
  rfl

/-- Settles O41: the rows of the branch opcode by `decode_of_rowFields` and `decode_branch_eq_nop`; a word that is not
the sentinel's does not decode to HALT, so its step stays RUNNING; `fetches_haltWord_of_step` is the converse. -/
theorem onlyTheSentinelWordStopsTheBlock : Obligations.OnlyTheSentinelWordStopsTheBlock := by
  refine ⟨fun w hop hne => ⟨fun hf3 => ?_, fun hf3 => ?_, decode_branch_eq_nop hop⟩, fun s w hf hne => ?_,
    fun s t => fetches_haltWord_of_step⟩
  · exact decode_of_rowFields (k := .beq) ⟨hop, hf3⟩ nofun fun _ => hne
  · exact decode_of_rowFields (k := .bne) ⟨hop, hf3⟩ nofun nofun
  · have hd : decode w ≠ .halt := mt (decode_eq_halt_iff w).1 hne
    obtain ⟨-, hexec⟩ := stepRunsTheDecodedInstruction s w hf
    obtain ⟨t, -, hstep, hstatus⟩ := hexec hd
    exact ⟨_, hstep, hstatus⟩

end Sys2Proof.Machine
end

