-- ==== Sys2Proof/Proofs/Hazards.lean ====
section
/-! No step writes the program or the budget, and only sw writes data memory (10_state.md R28; 20_memory.md R47;
70_reset_and_hazards.md R234). -/

open Sys2Proof.Claims

namespace Sys2Proof.Machine

/-- An instruction that changes data memory is sw (20_memory.md R47). -/
theorem exec_changes_mem {i : Instr} {s t : State} (h : exec i s = .next t) (hmem : t.mem ≠ s.mem) :
    ∃ rs1 rs2 imm, i = .sw rs1 rs2 imm := by
  obtain ⟨-, rfl⟩ | ⟨rs1, rs2, imm, rfl, -⟩ | ⟨-, _, _, _, rfl⟩ | ⟨-, _, rfl⟩ := exec_cases h
  case inr.inl => exact ⟨rs1, rs2, imm, rfl⟩
  all_goals exact absurd rfl hmem

/-- Settles O42: an end before a fetch and the sentinel touch none of the three; a retired instruction keeps the program
and the budget by `exec_frame`, and memory unless it is sw by `exec_changes_mem`. -/
theorem programAndBudgetNeverChange : Obligations.ProgramAndBudgetNeverChange := by
  intro s t h
  obtain ⟨hr, ⟨-, rfl⟩ | ⟨-, -, rfl⟩ | ⟨-, -, -, rfl⟩ | ⟨w, hm, hf, hb, ⟨-, rfl⟩ | ⟨hd, u, hu, rfl⟩⟩⟩ := step_cases h
  case inr.inr.inr.inr =>
    obtain ⟨-, -, -, himem, hbudget⟩ := exec_frame hd hu
    refine ⟨himem, hbudget, fun hmem => ?_⟩
    obtain ⟨rs1, rs2, imm, hsw⟩ := exec_changes_mem hu hmem
    exact ⟨w, rs1, rs2, imm, (fetches_iff s w).2 ⟨hr, hm, hf, hb⟩, hsw⟩
  all_goals exact ⟨rfl, rfl, fun hmem => absurd rfl hmem⟩

end Sys2Proof.Machine
end

