-- ==== Sys2Proof/Proofs/SpecWords.lean ====
section
/-! Words the spec writes out, and what they decode to (95_test_vectors.md sections 2.1, 2.2, 2.5). -/

namespace Sys2Proof

/-- The word of a well-formed instruction decodes to it. -/
theorem decode_of_encode_eq {w : Word} {i : Instr} (hw : encode i = w) (hwf : i.wellFormed = true) : decode w = i :=
  hw ▸ decodingTheEncodedWordGivesTheInstruction i hwf

/-- The word of sra, which is not in the subset, has a pair of function codes that no row lists (41_alu.md R139). -/
theorem decode_sraWord : decode 0b01000000001000001101000110110011#32 = .nop := by
  obtain ⟨hnop, -⟩ :=
    unlistedFunctionCodesAreNoOps 0b01000000001000001101000110110011#32 .reset (.inl ⟨rfl, by decide⟩)
  exact hnop

/-- Settles O8: eight of the words are the encoder's for the instructions they stand for; the jalr, whose funct3 the
encoder does not write, is read by its row (30_encoding.md R70), and the last word by the default. -/
theorem wordsOfTheSpecDecode : Obligations.WordsOfTheSpecDecode := by
  refine ⟨?add, ?sub, ?addi, ?sw, ?lw, ?bne, ?jal, ?jalr, ?halt, decode_sraWord⟩
  case jalr => exact decode_of_rowFields (k := .jalr) rfl nofun nofun
  all_goals exact decode_of_encode_eq rfl rfl

end Sys2Proof
end
